-- ==== Sys2Proof/Word.lean ====
section
/-! DEFINITION. The words of the block's interface: the 32-bit command word (`30_encoding.md` R50) and the two parts
of the response (R55). Bank values, digits and operands are no words: they are integers (`00_scope.md` R8). -/

namespace Sys2Proof

/-- A command word `cmd[31:0]` (R50). It is presented whole and has no byte order. -/
abbrev CmdWord := BitVec 32

/-- The unsigned `data` part of a response (R55). -/
abbrev RespData := BitVec 37

/-- A whole response as one word, `resp[38:0] = {status[1:0], data[36:0]}` (R55). -/
abbrev RespWord := BitVec 39

end Sys2Proof
end

