-- ==== Sys2Proof/Config.lean ====
section
/-! DEFINITION. The constants of the block (`00_scope.md` R4, R5) and its one open parameter (R6). Nothing here is a
free value: the spec leaves no value of this block open. -/

namespace Sys2Proof.Config

/-- Digits of the setting bank (R4). -/
def numSettingRegisters : Nat := 8

/-- Digits of the counting bank (R4). -/
def numCountingRegisters : Nat := 6

/-- Digits of the result bank (R4). -/
def numResultRegisters : Nat := 11

/-- Lowest carriage position (R5). -/
def carriageMin : Nat := 1

/-- Highest carriage position (R5); the spec forbids deriving it from a bank size. -/
def carriageMax : Nat := 6

/-- DESIGN CHOICE (log entry 9, safe): the open parameter `TURN_MAX` (R6, D6) at its default, the largest turn count
one command word can carry. The meaning of `TURN` does not depend on it. -/
def turnMax : Nat := 32767

end Sys2Proof.Config
end

