-- ==== Sys2Proof/Syntax.lean ====
section
/-! DEFINITION. The fifteen commands (`30_encoding.md` R52), their mnemonics, and the twelve operations of the source's
public surface (section 1 of that file). Operands are integers, as R51 assembles them. -/

namespace Sys2Proof

/-- One constructor per row of the opcode table (R52). `n`, `r`, `v` are the operands of R58: a carriage position or
turn count, a 1-based register index, a digit value. -/
inductive Instr where
  | rdcar
  | setcar (n : Int)
  | lift
  | lower
  | rdset
  | rdsetd (r : Int)
  | rdcnt
  | rdcntd (r : Int)
  | rdres
  | rdresd (r : Int)
  | setreg (r v : Int)
  | clrcnt
  | clrres
  | clr
  | turn (n : Int)
  deriving DecidableEq, Repr

/-- The mnemonics of the opcode table (R52, R58). -/
inductive Mnemonic where
  | RDCAR | SETCAR | LIFT | LOWER
  | RDSET | RDSETD | RDCNT | RDCNTD | RDRES | RDRESD
  | SETREG
  | CLRCNT | CLRRES | CLR
  | TURN
  deriving DecidableEq, Repr

/-- The source's public operations with their optional arguments (section 1 of `30_encoding.md`, R59). -/
inductive SourceOp where
  | readCarriage
  | setCarriage (n : Int)
  | liftCrank
  | lowerCrank
  | readSetting (r : Option Int)
  | readCounting (r : Option Int)
  | readResult (r : Option Int)
  | setRegister (r v : Int)
  | turn (n : Option Int)
  | clearCounting
  | clearResult
  | clear
  deriving DecidableEq, Repr

end Sys2Proof
end

