-- ==== Sys2Proof/WellFormed.lean ====
section
/-! DEFINITION. Which commands a command word can carry: the operand ranges of the fields `a` and `b`
(`30_encoding.md` R51, R58). A well-formed operand may still be out of the command's domain: that is a RangeError
at execution, not ill-formedness (R62). -/

namespace Sys2Proof

/-- An operand the 8-bit signed field `a` can hold: -128 to 127 (R51). -/
def fitsA (x : Int) : Bool := decide (-128 ≤ x) && decide (x ≤ 127)

/-- An operand the 16-bit signed field `b` can hold: -32768 to 32767 (R51). -/
def fitsB (x : Int) : Bool := decide (-32768 ≤ x) && decide (x ≤ 32767)

/-- A turn count the field `b` can hold, at most `TURN_MAX` (R6, R51). -/
def fitsTurn (n : Int) : Bool := fitsB n && decide (n ≤ (Config.turnMax : Int))

/-- The command can be assembled (R58). -/
def Instr.wellFormed : Instr → Bool
  | .rdcar => true
  | .setcar n => fitsA n
  | .lift => true
  | .lower => true
  | .rdset => true
  | .rdsetd r => fitsA r
  | .rdcnt => true
  | .rdcntd r => fitsA r
  | .rdres => true
  | .rdresd r => fitsA r
  | .setreg r v => fitsA r && fitsB v
  | .clrcnt => true
  | .clrres => true
  | .clr => true
  | .turn n => fitsTurn n

end Sys2Proof
end

