-- ==== Sys2Proof/Decode.lean ====
section
/-! DEFINITION. The decoder (`30_encoding.md` R50 to R54, R61), total on all command words, and the encoder written
from the same table; the opcode table's match and mask (R52); the operand syntax and pseudo-instructions (R58, R59). -/

namespace Sys2Proof

/-- `cmd[31:24]`, the opcode (R50). -/
def fieldOp (w : CmdWord) : BitVec 8 := w.extractLsb' 24 8

/-- `cmd[23:16]`, the first operand field (R50). -/
def fieldA (w : CmdWord) : BitVec 8 := w.extractLsb' 16 8

/-- `cmd[15:0]`, the second operand field (R50). -/
def fieldB (w : CmdWord) : BitVec 16 := w.extractLsb' 0 16

/-- The two's-complement value of a field (`00_scope.md` section 5.1). -/
def sext {n : Nat} (v : BitVec n) : Int :=
  if v.toNat < 2 ^ (n - 1) then (v.toNat : Int) else (v.toNat : Int) - (2 ^ n : Nat)

/-- The operand `A` of R51. -/
def operandA (w : CmdWord) : Int := sext (fieldA w)

/-- The operand `B` of R51. -/
def operandB (w : CmdWord) : Int := sext (fieldB w)

/-- Why a word is illegal (R54). The response does not tell the two apart. -/
inductive IllegalWord where
  /-- `op` is none of the fifteen opcodes. -/
  | unassignedOpcode
  /-- `op` is assigned and a field the command does not use is not zero (R53). -/
  | unusedFieldNonzero
  deriving DecidableEq, Repr

/-- What `decode` answers: a command, or Illegal with its reason (R61). -/
inductive Decoded where
  | legal (i : Instr)
  | illegal (why : IllegalWord)
  deriving DecidableEq, Repr

/-- A row whose unused fields must be zero (R53). -/
def legalIf (unusedZero : Bool) (i : Instr) : Decoded :=
  if unusedZero then .legal i else .illegal .unusedFieldNonzero

/-- The decoder of R61. -/
def decode (w : CmdWord) : Decoded :=
  let noOperands := w.extractLsb' 0 24 == 0#24
  let bZero := fieldB w == 0#16
  let aZero := fieldA w == 0#8
  match (fieldOp w).toNat with
  | 0x01 => legalIf noOperands .rdcar
  | 0x02 => legalIf bZero (.setcar (operandA w))
  | 0x03 => legalIf noOperands .lift
  | 0x04 => legalIf noOperands .lower
  | 0x10 => legalIf noOperands .rdset
  | 0x11 => legalIf bZero (.rdsetd (operandA w))
  | 0x12 => legalIf noOperands .rdcnt
  | 0x13 => legalIf bZero (.rdcntd (operandA w))
  | 0x14 => legalIf noOperands .rdres
  | 0x15 => legalIf bZero (.rdresd (operandA w))
  | 0x20 => .legal (.setreg (operandA w) (operandB w))
  | 0x30 => legalIf noOperands .clrcnt
  | 0x31 => legalIf noOperands .clrres
  | 0x32 => legalIf noOperands .clr
  | 0x40 => legalIf aZero (.turn (operandB w))
  | _ => .illegal .unassignedOpcode

/-- The decoder's command, if the word is legal. -/
def Decoded.instr? : Decoded → Option Instr
  | .legal i => some i
  | .illegal _ => none

/-- The command's mnemonic (R52). -/
def Instr.mnemonic : Instr → Mnemonic
  | .rdcar => .RDCAR
  | .setcar _ => .SETCAR
  | .lift => .LIFT
  | .lower => .LOWER
  | .rdset => .RDSET
  | .rdsetd _ => .RDSETD
  | .rdcnt => .RDCNT
  | .rdcntd _ => .RDCNTD
  | .rdres => .RDRES
  | .rdresd _ => .RDRESD
  | .setreg _ _ => .SETREG
  | .clrcnt => .CLRCNT
  | .clrres => .CLRRES
  | .clr => .CLR
  | .turn _ => .TURN

/-- The opcode number of a mnemonic, column `op` of R52. -/
def Mnemonic.opcode : Mnemonic → BitVec 8
  | .RDCAR => 0x01#8
  | .SETCAR => 0x02#8
  | .LIFT => 0x03#8
  | .LOWER => 0x04#8
  | .RDSET => 0x10#8
  | .RDSETD => 0x11#8
  | .RDCNT => 0x12#8
  | .RDCNTD => 0x13#8
  | .RDRES => 0x14#8
  | .RDRESD => 0x15#8
  | .SETREG => 0x20#8
  | .CLRCNT => 0x30#8
  | .CLRRES => 0x31#8
  | .CLR => 0x32#8
  | .TURN => 0x40#8

/-- What the command puts into field `a`: its operand `A`, or 0 where it has none (columns `A` of R52, R53). -/
def Instr.argA : Instr → Int
  | .rdcar => 0
  | .setcar n => n
  | .lift => 0
  | .lower => 0
  | .rdset => 0
  | .rdsetd r => r
  | .rdcnt => 0
  | .rdcntd r => r
  | .rdres => 0
  | .rdresd r => r
  | .setreg r _ => r
  | .clrcnt => 0
  | .clrres => 0
  | .clr => 0
  | .turn _ => 0

/-- What the command puts into field `b`: its operand `B`, or 0 where it has none (column `B` of R52, R53). -/
def Instr.argB : Instr → Int
  | .rdcar => 0
  | .setcar _ => 0
  | .lift => 0
  | .lower => 0
  | .rdset => 0
  | .rdsetd _ => 0
  | .rdcnt => 0
  | .rdcntd _ => 0
  | .rdres => 0
  | .rdresd _ => 0
  | .setreg _ v => v
  | .clrcnt => 0
  | .clrres => 0
  | .clr => 0
  | .turn n => n

/-- The word `{op, a, b}` of R50, the operands reduced to their fields. -/
def packWord (op : BitVec 8) (a b : Int) : CmdWord :=
  op ++ BitVec.ofInt 8 a ++ BitVec.ofInt 16 b

/-- The command's word (R52). -/
def encode (i : Instr) : CmdWord := packWord i.mnemonic.opcode i.argA i.argB

/-- A row of the opcode table: the word `w` is the command iff `w AND mask = bits` (R52). -/
structure OpRow where
  mnemonic : Mnemonic
  bits : CmdWord
  mask : CmdWord
  deriving DecidableEq, Repr

/-- Columns `match` and `mask` of R52. -/
def Mnemonic.row : Mnemonic → OpRow
  | .RDCAR => ⟨.RDCAR, 0x01000000#32, 0xFFFFFFFF#32⟩
  | .SETCAR => ⟨.SETCAR, 0x02000000#32, 0xFF00FFFF#32⟩
  | .LIFT => ⟨.LIFT, 0x03000000#32, 0xFFFFFFFF#32⟩
  | .LOWER => ⟨.LOWER, 0x04000000#32, 0xFFFFFFFF#32⟩
  | .RDSET => ⟨.RDSET, 0x10000000#32, 0xFFFFFFFF#32⟩
  | .RDSETD => ⟨.RDSETD, 0x11000000#32, 0xFF00FFFF#32⟩
  | .RDCNT => ⟨.RDCNT, 0x12000000#32, 0xFFFFFFFF#32⟩
  | .RDCNTD => ⟨.RDCNTD, 0x13000000#32, 0xFF00FFFF#32⟩
  | .RDRES => ⟨.RDRES, 0x14000000#32, 0xFFFFFFFF#32⟩
  | .RDRESD => ⟨.RDRESD, 0x15000000#32, 0xFF00FFFF#32⟩
  | .SETREG => ⟨.SETREG, 0x20000000#32, 0xFF000000#32⟩
  | .CLRCNT => ⟨.CLRCNT, 0x30000000#32, 0xFFFFFFFF#32⟩
  | .CLRRES => ⟨.CLRRES, 0x31000000#32, 0xFFFFFFFF#32⟩
  | .CLR => ⟨.CLR, 0x32000000#32, 0xFFFFFFFF#32⟩
  | .TURN => ⟨.TURN, 0x40000000#32, 0xFFFF0000#32⟩

/-- The fifteen mnemonics in the table's order (R52). -/
def allMnemonics : List Mnemonic :=
  [.RDCAR, .SETCAR, .LIFT, .LOWER, .RDSET, .RDSETD, .RDCNT, .RDCNTD, .RDRES, .RDRESD,
   .SETREG, .CLRCNT, .CLRRES, .CLR, .TURN]

/-- The opcode table (R52). -/
def opcodeTable : List OpRow := allMnemonics.map Mnemonic.row

/-- The word matches the row (R52). -/
def OpRow.matchesWord (row : OpRow) (w : CmdWord) : Bool := w &&& row.mask == row.bits

/-- A written command: its mnemonic and its operands in the order of R58. `TURN` without an operand is `TURN 1`
(R59). An operand that does not fit its field cannot be assembled. -/
def assemble (m : Mnemonic) (operands : List Int) : Option Instr :=
  let written : Option Instr :=
    match m, operands with
    | .RDCAR, [] => some .rdcar
    | .SETCAR, [n] => some (.setcar n)
    | .LIFT, [] => some .lift
    | .LOWER, [] => some .lower
    | .RDSET, [] => some .rdset
    | .RDSETD, [r] => some (.rdsetd r)
    | .RDCNT, [] => some .rdcnt
    | .RDCNTD, [r] => some (.rdcntd r)
    | .RDRES, [] => some .rdres
    | .RDRESD, [r] => some (.rdresd r)
    | .SETREG, [r, v] => some (.setreg r v)
    | .CLRCNT, [] => some .clrcnt
    | .CLRRES, [] => some .clrres
    | .CLR, [] => some .clr
    | .TURN, [] => some (.turn 1)
    | .TURN, [n] => some (.turn n)
    | _, _ => none
  written.filter Instr.wellFormed

/-- The command a source operation stands for (section 1 of `30_encoding.md`, R59): an omitted register is the
whole-bank read, an omitted turn count is 1. -/
def SourceOp.command : SourceOp → Instr
  | .readCarriage => .rdcar
  | .setCarriage n => .setcar n
  | .liftCrank => .lift
  | .lowerCrank => .lower
  | .readSetting none => .rdset
  | .readSetting (some r) => .rdsetd r
  | .readCounting none => .rdcnt
  | .readCounting (some r) => .rdcntd r
  | .readResult none => .rdres
  | .readResult (some r) => .rdresd r
  | .setRegister r v => .setreg r v
  | .turn none => .turn 1
  | .turn (some n) => .turn n
  | .clearCounting => .clrcnt
  | .clearResult => .clrres
  | .clear => .clr

/-- The command word of an instruction of `nbits` bits whose value is `w`, every bit above `nbits` zero
(DEDUCED, log entry 15, safe: the table's rows have 32 bits and the word is presented in parallel, R50). -/
def tableWord (nbits w : Nat) : CmdWord := BitVec.ofNat 32 (w % 2 ^ nbits)

/-- The command the decoder reads from an instruction whose bits are `w`; none where it refuses the word, or where
`nbits` is more than a command word has. -/
def decodeTableWord (nbits w : Nat) : Option Instr :=
  if nbits ≤ 32 then (decode (tableWord nbits w)).instr? else none

end Sys2Proof
end

