-- ==== Sys2Proof/Machine/State.lean ====
section
/-! DEFINITION. The machine's state as plain data: the five fields of the spec (`10_state.md` R10), and the block's
ports with the host's side of them (`30_encoding.md` R56, R57). -/

namespace Sys2Proof.Machine

/-- The whole architectural state (R10): these five fields and nothing else (R23). The banks are held as integers
(DESIGN CHOICE, log entry 7, safe: R27). Their ranges are an invariant (R16), `CalculatorState.Inv`. -/
structure CalculatorState where
  /-- `S`, the setting bank (R11). -/
  settingRegisters : Nat
  /-- `C`, the counting bank (R12). -/
  countingRegisters : Nat
  /-- `P`, the result bank (R13). -/
  resultRegisters : Nat
  /-- `K`, the carriage position (R14). -/
  carriageSetting : Nat
  /-- `D`, the crank: true = down, addition (R15). -/
  crankDown : Bool
  deriving DecidableEq, Repr

/-- The construction value of every field (R26, R130). -/
def CalculatorState.initial : CalculatorState where
  settingRegisters := 0
  countingRegisters := 0
  resultRegisters := 0
  carriageSetting := 1
  crankDown := true

/-- The three decimal register banks (`00_scope.md` R4), the first part of a digit address (`20_memory.md` R30). -/
inductive Bank where
  | setting
  | counting
  | result
  deriving DecidableEq, Repr

/-- A partial update of the five fields, the argument of `Commit` (R21): an absent field is left unchanged. The
counting and result values are not yet normalised. -/
structure PartialUpdate where
  setting : Option Nat := none
  counting : Option Int := none
  result : Option Int := none
  carriage : Option Nat := none
  crank : Option Bool := none
  deriving DecidableEq, Repr

/-- The status of a response (`30_encoding.md` R55); the fourth code is never produced (U9). -/
inductive Status where
  | ok
  | rangeError
  | illegalCommand
  deriving DecidableEq, Repr

/-- The block's answer to one command (R55). -/
structure Response where
  status : Status
  data : RespData
  deriving DecidableEq, Repr

/-- The causes of RangeError (`60_exceptions.md` R111). They are names only: no response and no field of the state
tells them apart (R110). -/
inductive RangeCause where
  | carriage
  | registerIndex
  | digitValue
  | turnCount
  deriving DecidableEq, Repr

/-- The block's input ports in one transaction slot (`30_encoding.md` R56), `clk` apart: no rule counts its edges. -/
structure PortsIn where
  rst : Bool
  cmdValid : Bool
  cmd : CmdWord
  deriving DecidableEq, Repr

/-- What the input ports of one slot ask of the block (R57, R131). -/
inductive Presented where
  /-- Nothing: `rst` and `cmd_valid` are low. -/
  | nothing
  /-- `rst` is asserted between transactions. -/
  | reset
  /-- A command transaction. -/
  | command (w : CmdWord)
  /-- A command while `rst` is asserted, which the spec leaves open (U8). -/
  | commandDuringReset
  deriving DecidableEq, Repr

/-- The machine: the block's five fields, its ports, and the host's side of the ports. -/
structure State where
  /-- The architectural state (R10). -/
  engine : CalculatorState
  /-- The input ports for every slot still to come, first one first: the host's sequence (R136), part of the
  environment (DESIGN CHOICE, log entry 1, safe). -/
  inputs : List PortsIn
  /-- The output ports: `some` is `resp_valid` high with `resp_status` and `resp_data`; `none` is `resp_valid` low,
  when those two mean nothing (R56, U12; DESIGN CHOICE, log entry 2, safe). -/
  response : Option Response
  /-- The responses the host has taken, first one first (R28, R136; DESIGN CHOICE, log entry 2, safe). -/
  responses : List Response
  deriving DecidableEq, Repr

/-- The reasons the model stops. No command raises one: the block itself never halts (R113, R125). -/
inductive Fault where
  /-- Raised by `step` when the host presents a command while `rst` is asserted: U8 gives this no behaviour and the
  protocol forbids it (R57, R124; DESIGN CHOICE, log entry 5). Safe: nothing is claimed of such a slot. -/
  | commandDuringReset
  deriving DecidableEq, Repr

/-- The reasons the model refuses an instruction. -/
inductive Refusal where
  /-- Raised by `exec` for an instruction that has no meaning yet; safe. No arm raises it: every command is
  modelled. -/
  | notModelled (mnemonic : String)
  deriving DecidableEq, Repr

/-- What a step or a command's meaning answers. -/
abbrev StepOutcome := Host.Outcome State Fault Refusal

/-- The machine right after reset: the five fields at the values of R26, no input presented yet (log entry 1) and no
response given yet (log entry 2). -/
def State.reset : State where
  engine := CalculatorState.initial
  inputs := []
  response := none
  responses := []

end Sys2Proof.Machine
end

