-- ==== Sys2Proof/Machine/Ops.lean ====
section
/-! DEFINITION. The operations every command is written with: the digit codec, the addressed digit read and write,
the normalisation, `Commit`, `respond`, and the two failures (`10_state.md`, `20_memory.md`, `60_exceptions.md`);
and what the input ports present. -/

namespace Sys2Proof.Machine

/-- `digits(bank)` (`00_scope.md` R4). -/
def Bank.digits : Bank → Nat
  | .setting => Config.numSettingRegisters
  | .counting => Config.numCountingRegisters
  | .result => Config.numResultRegisters

/-- `modulus(bank) = 10^digits(bank)` (`00_scope.md` R4). -/
def Bank.modulus (b : Bank) : Nat := 10 ^ b.digits

/-- `BANK(bank)`, a whole bank as an integer (`00_scope.md` section 5.3). -/
def CalculatorState.bank (c : CalculatorState) : Bank → Nat
  | .setting => c.settingRegisters
  | .counting => c.countingRegisters
  | .result => c.resultRegisters

/-- The codec's decode direction (R17): `size` digits of `n`, units digit first. What it gives for `n` of more than
`size` digits is open (U4; log entry 10). -/
def toDigitArray (n size : Nat) : List Nat :=
  (List.range size).map fun i => n / 10 ^ i % 10

/-- The sum of `digits[j] * 10^(i+j)`. -/
def toDecimalFrom (i : Nat) : List Nat → Nat
  | [] => 0
  | d :: ds => d * 10 ^ i + toDecimalFrom (i + 1) ds

/-- The codec's encode direction (R19): the sum of `digits[i] * 10^i`. For an array holding a non-digit (an entry above
9), of which nothing is said (U4, N24), it is the formula's sum (DESIGN CHOICE, log entry 17). -/
def toDecimal (digits : List Nat) : Nat := toDecimalFrom 0 digits

/-- `DigitRead(bank, r)` (R17), for a register index the command has checked. For `r` outside `[1, digits(bank)]` R17
leaves it not defined and never evaluated; here `r = 0` gives the units digit and an `r` above `digits(bank)` the
formula's value (DESIGN CHOICE, log entry 17). In a state outside R16 it is the formula's value too (log entry 10). -/
def CalculatorState.digitRead (c : CalculatorState) (b : Bank) (r : Nat) : Nat :=
  c.bank b / 10 ^ (r - 1) % 10

/-- `DigitWrite(S, r, v)` (R18), for operands the command has checked: decode, replace digit `r - 1`, re-encode. R18
speaks of `r` from 1 to 8 and `v` from 0 to 9 only; for others it is this formula's value (DESIGN CHOICE, log
entry 17). -/
def digitWrite (n r v : Nat) : Nat :=
  toDecimal ((toDigitArray n Bank.setting.digits).set (r - 1) v)

/-- `norm(bank, v)` (R20): the true modulo of R9. R20 speaks of the counting and result banks; nothing normalises the
setting bank, for which this is the same formula (DESIGN CHOICE, log entry 17). -/
def norm (b : Bank) (v : Int) : Nat := (v % (b.modulus : Int)).toNat

/-- The merge of `Commit` (R21): present fields replace the old ones, the counting and result values normalised, the
others stored as given (C1; DESIGN CHOICE, log entry 8, safe). -/
def CalculatorState.merge (c : CalculatorState) (u : PartialUpdate) : CalculatorState where
  settingRegisters := u.setting.getD c.settingRegisters
  countingRegisters := (u.counting.map (norm .counting)).getD c.countingRegisters
  resultRegisters := (u.result.map (norm .result)).getD c.resultRegisters
  carriageSetting := u.carriage.getD c.carriageSetting
  crankDown := u.crank.getD c.crankDown

/-- `Commit` (R21): the one way the five fields change in a command (R22), in one transition. -/
def State.commit (s : State) (u : PartialUpdate) : State := { s with engine := s.engine.merge u }

/-- The response of R55: the data in unsigned binary. -/
def mkResponse (st : Status) (data : Nat) : Response := ⟨st, BitVec.ofNat 37 data⟩

/-- `respond(status, data)` (R55): the response stands on the output ports and the host takes it (R57). -/
def State.respond (s : State) (st : Status) (data : Nat) : State :=
  { s with
    response := some (mkResponse st data)
    responses := s.responses ++ [mkResponse st data] }

/-- Raising RangeError (R110 to R113, R116): no `Commit`, no saved register, no transfer of control; the whole effect
is the response `(RANGE_ERROR, 0)`. The cause is not in it (R110). -/
def raiseRangeError (_cause : RangeCause) (s : State) : State := s.respond .rangeError 0

/-- An illegal word (R54, R118): no `Commit`; the response `(ILLEGAL_COMMAND, 0)`. Answering it rather than refusing
it at the decoder is a DESIGN CHOICE (log entry 6, safe). -/
def raiseIllegalCommand (_why : IllegalWord) (s : State) : State := s.respond .illegalCommand 0

/-- A command with a range check: it fails before anything is written, or acts (R112). Nothing is to be restored
after a failure: there is no return from it (R117). -/
def State.checked (s : State) (check : Option RangeCause) (action : State → State) : State :=
  match check with
  | some cause => raiseRangeError cause s
  | none => action s

/-- The reset event (`70_reset_and_hazards.md` R130, R131): the five fields take their reset values and no response
is given (R124). The host's own sequence and record are not the block's and stay (DEDUCED, log entry 11, safe). -/
def State.resetEvent (s : State) : State :=
  { s with engine := CalculatorState.initial, response := none }

/-- A slot in which nothing is presented: the five fields keep their values (R114), and `resp_valid` is low
(DEDUCED, log entry 4, safe). -/
def State.idle (s : State) : State := { s with response := none }

/-- What one slot's input ports present (R56, R57). -/
def PortsIn.presented (p : PortsIn) : Presented :=
  match p.rst, p.cmdValid with
  | false, false => .nothing
  | true, false => .reset
  | false, true => .command p.cmd
  | true, true => .commandDuringReset

/-- The ports with one command presented. -/
def PortsIn.ofCommand (w : CmdWord) : PortsIn := ⟨false, true, w⟩

/-- What the next slot presents, and the machine with that slot taken from the host's sequence. An exhausted
sequence presents nothing (R136). -/
def State.takeInput (s : State) : Presented × State :=
  match s.inputs with
  | [] => (.nothing, s)
  | p :: rest => (p.presented, { s with inputs := rest })

/-- The host presents the word next: the place where `step` takes its command. -/
def State.present (s : State) (w : CmdWord) : State :=
  { s with inputs := PortsIn.ofCommand w :: s.inputs }

/-- The code of a status (R55). -/
def Status.code : Status → BitVec 2
  | .ok => 0#2
  | .rangeError => 1#2
  | .illegalCommand => 2#2

/-- The response as one word, `{status, data}` (R55). -/
def Response.word (r : Response) : RespWord := r.status.code ++ r.data

end Sys2Proof.Machine
end

