-- ==== Sys2Proof/Machine/Operands.lean ====
section
/-! DEFINITION. The range checks of the operands (`60_exceptions.md` R111): `none` is in the domain, `some` names the
cause. They read the operands alone. -/

namespace Sys2Proof.Machine

/-- `n` is a carriage position, 1 to 6 (`40_carriage_crank.md` R71). -/
def carriageCheck (n : Int) : Option RangeCause :=
  if n < (Config.carriageMin : Int) ∨ (Config.carriageMax : Int) < n then some .carriage else none

/-- `r` is a register index of the bank, 1 to `digits(bank)` (`41_bank_read.md` R80, `20_memory.md` R31). -/
def registerCheck (b : Bank) (r : Int) : Option RangeCause :=
  if r < 1 ∨ (b.digits : Int) < r then some .registerIndex else none

/-- `v` is a decimal digit (`42_bank_write.md` R90). -/
def digitCheck (v : Int) : Option RangeCause :=
  if v < 0 ∨ 9 < v then some .digitValue else none

/-- `SETREG`'s two checks, the register index first (R90, `60_exceptions.md` R115). -/
def setregCheck (r v : Int) : Option RangeCause :=
  match registerCheck .setting r with
  | some cause => some cause
  | none => digitCheck v

/-- `n` is a turn count, at least 1, with no upper bound (`44_turn.md` R100, `00_scope.md` R6). -/
def turnCheck (n : Int) : Option RangeCause :=
  if n < 1 then some .turnCount else none

end Sys2Proof.Machine
end

