-- ==== Sys2Proof/Machine/Flags.lean ====
section
/-! DEFINITION. The block has no flags: no carry, borrow, overflow, zero, sign or error bit, and no command writes one
(`10_state.md` R23). Its one mode bit is the crank (R15), which gives a turn its sign. -/

namespace Sys2Proof.Machine

/-- `multiplier` (R15, `44_turn.md` R100): +1 with the crank down, -1 with the crank up. -/
def multiplier (crankDown : Bool) : Int := if crankDown then 1 else -1

end Sys2Proof.Machine
end

