-- ==== Sys2Proof/Machine/BankRead.lean ====
section
/-! DEFINITION. The bank reads (`41_bank_read.md`): the generic read of R80 and its six commands. -/

namespace Sys2Proof.Machine

/-- `ReadWhole(bank)` (R80). -/
def readWhole (b : Bank) (s : State) : State := s.respond .ok (s.engine.bank b)

/-- `ReadDigit(bank, r)` (R80). -/
def readDigit (b : Bank) (r : Int) (s : State) : State :=
  s.checked (registerCheck b r) fun s => s.respond .ok (s.engine.digitRead b r.toNat)

/-- `RDSET` (R81). -/
def execRdset (s : State) : StepOutcome := .next (readWhole .setting s)

/-- `RDSETD r` (R82). -/
def execRdsetd (r : Int) (s : State) : StepOutcome := .next (readDigit .setting r s)

/-- `RDCNT` (R83). -/
def execRdcnt (s : State) : StepOutcome := .next (readWhole .counting s)

/-- `RDCNTD r` (R84). -/
def execRdcntd (r : Int) (s : State) : StepOutcome := .next (readDigit .counting r s)

/-- `RDRES` (R85). -/
def execRdres (s : State) : StepOutcome := .next (readWhole .result s)

/-- `RDRESD r` (R86). -/
def execRdresd (r : Int) (s : State) : StepOutcome := .next (readDigit .result r s)

end Sys2Proof.Machine
end

