-- ==== Sys2Proof/Machine/BankWrite.lean ====
section
/-! DEFINITION. The bank write (`42_bank_write.md`): one digit of the setting bank, the only digit write there is (R92). -/

namespace Sys2Proof.Machine

/-- `SETREG r, v` (R90). -/
def execSetreg (r v : Int) (s : State) : StepOutcome :=
  .next (s.checked (setregCheck r v) fun s =>
    (s.commit { setting := some (digitWrite s.engine.settingRegisters r.toNat v.toNat) }).respond .ok 0)

end Sys2Proof.Machine
end

