-- ==== Sys2Proof/Machine/CarriageCrank.lean ====
section
/-! DEFINITION. The carriage and crank commands (`40_carriage_crank.md`). -/

namespace Sys2Proof.Machine

/-- `RDCAR` (R70). -/
def execRdcar (s : State) : StepOutcome := .next (s.respond .ok s.engine.carriageSetting)

/-- `SETCAR n` (R71). -/
def execSetcar (n : Int) (s : State) : StepOutcome :=
  .next (s.checked (carriageCheck n) fun s => (s.commit { carriage := some n.toNat }).respond .ok 0)

/-- `LIFT` (R72). -/
def execLift (s : State) : StepOutcome := .next ((s.commit { crank := some false }).respond .ok 0)

/-- `LOWER` (R73). -/
def execLower (s : State) : StepOutcome := .next ((s.commit { crank := some true }).respond .ok 0)

end Sys2Proof.Machine
end

