-- ==== Sys2Proof/Machine/Clearing.lean ====
section
/-! DEFINITION. The clearing commands (`43_clearing.md`). -/

namespace Sys2Proof.Machine

/-- `CLRCNT` (R95). -/
def execClrcnt (s : State) : StepOutcome := .next ((s.commit { counting := some 0 }).respond .ok 0)

/-- `CLRRES` (R96). -/
def execClrres (s : State) : StepOutcome := .next ((s.commit { result := some 0 }).respond .ok 0)

/-- `CLR` (R97): both banks in one `Commit`. -/
def execClr (s : State) : StepOutcome :=
  .next ((s.commit { counting := some 0, result := some 0 }).respond .ok 0)

end Sys2Proof.Machine
end

