-- ==== Sys2Proof/Machine/Turn.lean ====
section
/-! DEFINITION. The turn (`44_turn.md` R100), in exact integers (`00_scope.md` R8), for every integer count. -/

namespace Sys2Proof.Machine

/-- `turnWeight = n * 10^(K-1) * multiplier` (R100). -/
def turnWeight (n : Int) (c : CalculatorState) : Int :=
  n * ((10 ^ (c.carriageSetting - 1) : Nat) : Int) * multiplier c.crankDown

/-- `turnValue = S * turnWeight` (R100). -/
def turnValue (n : Int) (c : CalculatorState) : Int := (c.settingRegisters : Int) * turnWeight n c

/-- `TURN n` (R100): both banks in one `Commit`, both from the old state. -/
def execTurn (n : Int) (s : State) : StepOutcome :=
  .next (s.checked (turnCheck n) fun s =>
    (s.commit
      { counting := some ((s.engine.countingRegisters : Int) + turnWeight n s.engine)
        result := some ((s.engine.resultRegisters : Int) + turnValue n s.engine) }).respond .ok 0)

end Sys2Proof.Machine
end

