-- ==== Sys2Proof/Machine/Dispatch.lean ====
section
/-! DEFINITION. The dispatch: one arm per command, each one call of its meaning. -/

namespace Sys2Proof.Machine

/-- The meaning of a decoded command (`70_reset_and_hazards.md` R135). -/
def exec (i : Instr) (s : State) : Host.Outcome State Fault Refusal :=
  match i with
  | .rdcar => Sys2Proof.Machine.execRdcar s
  | .setcar n => Sys2Proof.Machine.execSetcar n s
  | .lift => Sys2Proof.Machine.execLift s
  | .lower => Sys2Proof.Machine.execLower s
  | .rdset => Sys2Proof.Machine.execRdset s
  | .rdsetd r => Sys2Proof.Machine.execRdsetd r s
  | .rdcnt => Sys2Proof.Machine.execRdcnt s
  | .rdcntd r => Sys2Proof.Machine.execRdcntd r s
  | .rdres => Sys2Proof.Machine.execRdres s
  | .rdresd r => Sys2Proof.Machine.execRdresd r s
  | .setreg r v => Sys2Proof.Machine.execSetreg r v s
  | .clrcnt => Sys2Proof.Machine.execClrcnt s
  | .clrres => Sys2Proof.Machine.execClrres s
  | .clr => Sys2Proof.Machine.execClr s
  | .turn n => Sys2Proof.Machine.execTurn n s

end Sys2Proof.Machine
end

