-- ==== Sys2Proof/Machine/Step.lean ====
section
/-! DEFINITION. One step of the machine: one transaction slot (`30_encoding.md` R57, `70_reset_and_hazards.md` R135). -/

namespace Sys2Proof.Machine

/-- One slot: the next input is taken and served. A command word is decoded and run, or answered as illegal (R135);
`rst` resets (R131); nothing presented changes nothing (R114); a command under `rst` stops the model (U8). -/
def step (s : State) : Host.Outcome State Fault Refusal :=
  match s.takeInput with
  | (.nothing, s') => .next s'.idle
  | (.reset, s') => .next s'.resetEvent
  | (.command w, s') =>
    match decode w with
    | .legal i => exec i s'
    | .illegal why => .next (raiseIllegalCommand why s')
  | (.commandDuringReset, _) => .fault .commandDuringReset

/-- The state in which the host presents the given command word next (log entries 1 and 15). -/
def State.withFetchWord (s : State) (nbits w : Nat) : State := s.present (tableWord nbits w)

end Sys2Proof.Machine
end

