-- ==== Sys2Proof/Machine/Run.lean ====
section
/-! DEFINITION. Runs: a host that presents a fixed sequence (`70_reset_and_hazards.md` R136), and a host whose next
command depends on the responses (`60_exceptions.md` R120). Control flow is the host's, never the block's. -/

namespace Sys2Proof.Machine

/-- The host presents a sequence of command words and nothing else (R136). -/
def State.presentAll (s : State) (ws : List CmdWord) : State :=
  { s with inputs := ws.map PortsIn.ofCommand }

/-- A sequence of decoded commands, one after another, up to the first stop (R136). -/
def execAll : List Instr → State → StepOutcome
  | [], s => .next s
  | i :: is, s =>
    match exec i s with
    | .next t => execAll is t
    | .fault f => .fault f
    | .refused r => .refused r

/-- A response-dependent host: a function from the responses so far to the next command (R120). `none` says that it
issues no further command, where its run ends (R136); a host that never says so issues commands for ever. -/
abbrev FeedbackHost := List Response → Option CmdWord

/-- At most `k` transactions with a response-dependent host (R120): it reads its record of the responses, presents the
word it chooses, the block serves it, and the host chooses again. -/
def runFeedback (host : FeedbackHost) : Nat → State → StepOutcome
  | 0, s => .next s
  | k + 1, s =>
    match host s.responses with
    | none => .next s
    | some w =>
      match step (s.present w) with
      | .next t => runFeedback host k t
      | .fault f => .fault f
      | .refused r => .refused r

end Sys2Proof.Machine
end

