-- ==== Sys2Proof/Safety.lean ====
section
/-! DEFINITION. What counts as a safe state, in the terms the claims use: the invariants of `10_state.md` R16, valid
responses (`30_encoding.md` R55), what one answered command leaves, and the weights of the product law
(`44_turn.md` R106). -/

namespace Sys2Proof.Machine

/-- The invariants of R16: every bank below its modulus, the carriage from 1 to 6. The crank is a boolean by its
type. -/
abbrev CalculatorState.Inv (c : CalculatorState) : Prop :=
  c.settingRegisters < 10 ^ 8 ∧ c.countingRegisters < 10 ^ 6 ∧ c.resultRegisters < 10 ^ 11 ∧
    1 ≤ c.carriageSetting ∧ c.carriageSetting ≤ 6

/-- A response the block may give (R55): its data is at most 10^11 - 1, and 0 unless the status is OK. -/
abbrev Response.valid (r : Response) : Prop :=
  r.data.toNat < 10 ^ 11 ∧ (r.status ≠ .ok → r.data = 0)

/-- The invariant of the whole machine: R16, every response given is valid, and the response on the output ports, if
there is one, is the last one the host took. -/
abbrev State.Inv (s : State) : Prop :=
  s.engine.Inv ∧ (∀ r ∈ s.responses, r.valid) ∧ (s.response = none ∨ s.response = s.responses.getLast?)

/-- What one answered command leaves: the five fields `c`, the one response `r` on the output ports and at the end
of the host's record, and the host's remaining inputs as they were. -/
def State.answer (s : State) (c : CalculatorState) (r : Response) : State :=
  { engine := c, inputs := s.inputs, response := some r, responses := s.responses ++ [r] }

/-- The commands during which the product law of R106 speaks: all but those that write `S` or clear `C` or `P`. -/
def keepsProduct : Instr → Bool
  | .setreg _ _ => false
  | .clrcnt => false
  | .clrres => false
  | .clr => false
  | _ => true

/-- The sum of the `turnWeight`s of the successful turns of a command sequence (R106) that starts with the carriage
at `k` and the crank at `d`. -/
def totalWeight : List Instr → Nat → Bool → Int
  | [], _, _ => 0
  | .turn n :: is, k, d =>
    (if 1 ≤ n then n * (10 ^ (k - 1) : Nat) * (if d then 1 else -1) else 0) + totalWeight is k d
  | .setcar n :: is, k, d => totalWeight is (if 1 ≤ n ∧ n ≤ 6 then n.toNat else k) d
  | .lift :: is, k, _ => totalWeight is k false
  | .lower :: is, k, _ => totalWeight is k true
  | _ :: is, k, d => totalWeight is k d

end Sys2Proof.Machine
end

