-- ==== Sys2Proof/Certificates/Slice0/Obligations.lean ====
section
/-! DEFINITION. The statements for the provers. Each docstring names the rule or section of spec/ it formalises. A
command's statement gives the whole next state (`State.answer`): the five fields, the one response, the host's inputs
untouched; what it does not name is unchanged, and it is the command's completion and its frame in one. -/

open Sys2Proof Sys2Proof.Machine

/-! ### Encoding -/

/-- `30_encoding.md` section 2: decoding an encoded command gives it back, for every operand its fields can hold. -/
def Obligations.DecodeEncodeRoundTrip : Prop :=
  ∀ i : Instr, i.wellFormed = true → decode (encode i) = .legal i

/-- `30_encoding.md` section 2: each command with given operands has exactly one word. -/
def Obligations.EncodeDecodeRoundTrip : Prop :=
  ∀ (w : CmdWord) (i : Instr), decode w = .legal i → i.wellFormed = true ∧ encode i = w

/-- `30_encoding.md` section 2: the decoder is the opcode table, and no word matches two rows. -/
def Obligations.DecoderAgreesWithOpcodeTable : Prop :=
  (∀ (m : Mnemonic) (w : CmdWord),
    w &&& m.row.mask = m.row.bits ↔ ∃ i, decode w = .legal i ∧ i.mnemonic = m) ∧
  opcodeTable.Pairwise (fun p q => ∀ w : CmdWord, ¬(w &&& p.mask = p.bits ∧ w &&& q.mask = q.bits)) ∧
  ∀ m : Mnemonic, m.row ∈ opcodeTable ∧ m.row.mnemonic = m

/-- R53. Which fields a command uses is the table's: `a` for SETCAR, the digit reads and SETREG, `b` for SETREG
and TURN. -/
def Obligations.UnusedFieldsMustBeZero : Prop :=
  (∀ (m : Mnemonic) (w : CmdWord), fieldOp w = m.opcode →
    ((m ∉ [Mnemonic.SETCAR, .RDSETD, .RDCNTD, .RDRESD, .SETREG] ∧ fieldA w ≠ 0) ∨
      (m ∉ [Mnemonic.SETREG, .TURN] ∧ fieldB w ≠ 0)) →
    (∀ row ∈ opcodeTable, w &&& row.mask ≠ row.bits) ∧ decode w = .illegal .unusedFieldNonzero) ∧
  (∀ m : Mnemonic,
    (m.row.mask.extractLsb' 16 8 = if m ∈ [Mnemonic.SETCAR, .RDSETD, .RDCNTD, .RDRESD, .SETREG] then 0#8 else 0xFF#8) ∧
    (m.row.mask.extractLsb' 0 16 = if m ∈ [Mnemonic.SETREG, .TURN] then 0#16 else 0xFFFF#16)) ∧
  decode 0x01000001#32 ≠ .legal .rdcar

/-- `30_encoding.md` section 2 (R51): the operands are the two's-complement values of the fields, and every value of
the ranges is some word's. -/
def Obligations.OperandsAreSignedFields : Prop :=
  (∀ w : CmdWord, -128 ≤ operandA w ∧ operandA w ≤ 127 ∧
    operandA w % 256 = ((fieldA w).toNat : Int)) ∧
  (∀ w : CmdWord, -32768 ≤ operandB w ∧ operandB w ≤ 32767 ∧
    operandB w % 65536 = ((fieldB w).toNat : Int)) ∧
  (∀ a b : Int, -128 ≤ a → a ≤ 127 → -32768 ≤ b → b ≤ 32767 →
    ∃ w : CmdWord, operandA w = a ∧ operandB w = b)

/-- R62: `decode` accepts every operand value its field can hold; a bad operand and a bad word differ only in the
status of their answers. -/
def Obligations.RangeChecksAreNotDecoding : Prop :=
  (∀ (a : BitVec 8) (b : BitVec 16),
    decode (0x02#8 ++ a ++ 0#16 : BitVec 32) = .legal (.setcar (sext a)) ∧
    decode (0x11#8 ++ a ++ 0#16 : BitVec 32) = .legal (.rdsetd (sext a)) ∧
    decode (0x13#8 ++ a ++ 0#16 : BitVec 32) = .legal (.rdcntd (sext a)) ∧
    decode (0x15#8 ++ a ++ 0#16 : BitVec 32) = .legal (.rdresd (sext a)) ∧
    decode (0x20#8 ++ a ++ b : BitVec 32) = .legal (.setreg (sext a) (sext b)) ∧
    decode (0x40#8 ++ 0#8 ++ b : BitVec 32) = .legal (.turn (sext b))) ∧
  ∀ s : State,
    decode 0x02070000#32 = .legal (.setcar 7) ∧
    step (s.present 0x02070000#32) = .next (s.answer s.engine ⟨.rangeError, 0⟩) ∧
    step (s.present 0x02070001#32) = .next (s.answer s.engine ⟨.illegalCommand, 0⟩)

/-- Words written out from the table of R52, bit by bit, one per family and the operands' corners, and the
all-zero word, which is illegal. -/
def Obligations.WrittenWordsDecode : Prop :=
  decode 0b00000001000000000000000000000000#32 = .legal .rdcar ∧
  decode 0b00000010000000110000000000000000#32 = .legal (.setcar 3) ∧
  decode 0b00010001111111110000000000000000#32 = .legal (.rdsetd (-1)) ∧
  decode 0b00010101000010110000000000000000#32 = .legal (.rdresd 11) ∧
  decode 0b00100000000010000000000000001001#32 = .legal (.setreg 8 9) ∧
  decode 0b00110010000000000000000000000000#32 = .legal .clr ∧
  decode 0b01000000000000000111111111111111#32 = .legal (.turn 32767) ∧
  decode 0b01000000000000001000000000000000#32 = .legal (.turn (-32768)) ∧
  decode 0b00000000000000000000000000000000#32 = .illegal .unassignedOpcode

/-- `30_encoding.md` section 5: what can be assembled is exactly what a word can carry, under the written mnemonic. -/
def Obligations.AssembledCommandsAreTheEncodable : Prop :=
  (∀ (m : Mnemonic) (ops : List Int) (i : Instr), assemble m ops = some i →
    i.wellFormed = true ∧ i.mnemonic = m) ∧
  (∀ i : Instr, i.wellFormed = true → ∃ ops, assemble i.mnemonic ops = some i)

/-- `30_encoding.md` sections 1 and 5: the source's operations with their optional arguments. -/
def Obligations.SourceOperationsExpand : Prop :=
  encode (SourceOp.turn none).command = 0x40000001#32 ∧
  assemble .TURN [] = some (SourceOp.turn none).command ∧
  encode (SourceOp.readSetting none).command = 0x10000000#32 ∧
  encode (SourceOp.readCounting none).command = 0x12000000#32 ∧
  encode (SourceOp.readResult none).command = 0x14000000#32 ∧
  (∀ r : Int, assemble .RDSETD [r] = some (SourceOp.readSetting (some r)).command ↔ -128 ≤ r ∧ r ≤ 127)

/-- `30_encoding.md` section 3: the response as one word. Status 3 is never produced (U9). -/
def Obligations.ResponseWordLayout : Prop :=
  ∀ r : Response,
    r.word.extractLsb' 37 2 = r.status.code ∧ r.word.extractLsb' 0 37 = r.data ∧ r.status.code ≠ 3#2 ∧
      (r.status.code = 0#2 ↔ r.status = .ok) ∧ (r.status.code = 1#2 ↔ r.status = .rangeError)

/-! ### One step -/

/-- `70_reset_and_hazards.md` section 3 (R135): a step runs the decoded command on the machine with that slot taken. -/
def Obligations.StepRunsDecodedCommand : Prop :=
  ∀ (s : State) (w : CmdWord) (rest : List PortsIn) (i : Instr),
    s.inputs = PortsIn.ofCommand w :: rest → decode w = .legal i →
      step s = exec i { s with inputs := rest }

/-- R118: an illegal word changes nothing and is answered (ILLEGAL_COMMAND, 0); the illegal words are those that
match no row of the table, the unassigned opcodes among them (`30_encoding.md` section 2). -/
def Obligations.IllegalWordChangesNothing : Prop :=
  (∀ (s : State) (w : CmdWord) (why : IllegalWord), decode w = .illegal why →
    step (s.present w) = .next (s.answer s.engine ⟨.illegalCommand, 0⟩)) ∧
  (∀ (s : State) (w : CmdWord),
    (∀ row ∈ opcodeTable, w &&& row.mask ≠ row.bits) →
      step (s.present w) = .next (s.answer s.engine ⟨.illegalCommand, 0⟩)) ∧
  (∀ w : CmdWord, (∀ m : Mnemonic, fieldOp w ≠ m.opcode) → ∀ row ∈ opcodeTable, w &&& row.mask ≠ row.bits) ∧
  (∀ m : Mnemonic, m.opcode ≠ 0x00#8 ∧ m.opcode ≠ 0x21#8 ∧ m.opcode ≠ 0x22#8)

/-- `70_reset_and_hazards.md` section 1 (R131): `rst` between transactions gives the reset state of the block; that
the host's inputs and record stay is the model's (log entry 11). -/
def Obligations.ResetInputRestoresResetState : Prop :=
  ∀ (s : State) (w : CmdWord) (rest : List PortsIn),
    s.inputs = ⟨true, false, w⟩ :: rest →
      step s = .next
        { engine := State.reset.engine, inputs := rest, response := none, responses := s.responses }

/-- `60_exceptions.md` section 2 (R114): a slot with nothing presented, or an exhausted sequence, leaves the five
fields as they are; that it is a step of the model is the model's choice (log entry 4). -/
def Obligations.NothingPresentedChangesNothing : Prop :=
  (∀ s : State, s.inputs = [] → step s = .next { s with response := none }) ∧
  ∀ (s : State) (w : CmdWord) (rest : List PortsIn),
    s.inputs = ⟨false, false, w⟩ :: rest → step s = .next { s with inputs := rest, response := none }

/-- The model's one stop (log entry 5): a command presented under `rst`, which `93_implementation_defined.md` U8
gives no behaviour; no other input stops the machine. -/
def Obligations.OnlyCommandUnderResetStops : Prop :=
  ∀ s : State,
    ((∃ w rest, s.inputs = ⟨true, true, w⟩ :: rest) → step s = .fault .commandDuringReset) ∧
    ((¬∃ w rest, s.inputs = ⟨true, true, w⟩ :: rest) → ∃ t, step s = .next t)

/-- R26: the reset value of every field and of every digit of the digit address space. -/
def Obligations.ResetValues : Prop :=
  State.reset.engine.settingRegisters = 0 ∧ State.reset.engine.countingRegisters = 0 ∧
  State.reset.engine.resultRegisters = 0 ∧ State.reset.engine.carriageSetting = 1 ∧
  State.reset.engine.crankDown = true ∧
  ∀ (b : Bank) (r : Nat), 1 ≤ r → r ≤ b.digits → State.reset.engine.digitRead b r = 0

/-! ### Invariants and whole-machine rules -/

/-- The invariant holds at reset. -/
def Obligations.ResetMeetsInvariants : Prop := State.reset.Inv

/-- `10_state.md` section 1 (R16): every step keeps the ranges of the five fields, and every response given is one
the block may give (`30_encoding.md` section 3). -/
def Obligations.StepKeepsInvariants : Prop :=
  ∀ s t : State, s.Inv → step s = .next t → t.Inv

/-- R125: for every state of R16 and every word there is a next state of R16 and one response. -/
def Obligations.EveryWordIsAnswered : Prop :=
  ∀ (s : State) (w : CmdWord), s.engine.Inv →
    ∃ (c : CalculatorState) (r : Response),
      step (s.present w) = .next (s.answer c r) ∧ c.Inv ∧ r.valid ∧
        ∀ c' r', step (s.present w) = .next (s.answer c' r') → c' = c ∧ r' = r

/-- `70_reset_and_hazards.md` section 3 (R136): a run of k command words ends after k steps with k responses, none of
the earlier ones altered, and no input left. -/
def Obligations.RunAnswersEveryWordOnce : Prop :=
  ∀ (ws : List CmdWord) (s : State), s.engine.Inv →
    ∃ (t : State) (rs : List Response),
      core.run ws.length (s.presentAll ws) = .next t ∧ t.inputs = [] ∧ t.engine.Inv ∧
        rs.length = ws.length ∧ t.responses = s.responses ++ rs ∧ ∀ r ∈ rs, r.valid

/-- `60_exceptions.md` section 4 (R120): a run with a response-dependent host, a function from the responses so far to
the next command, never stops and keeps R16; it is the run of a fixed sequence of words, each the host's choice upon
the responses before it, and it ends after `k` transactions or where the host chooses none. -/
def Obligations.FeedbackRunIsASequenceRun : Prop :=
  ∀ (host : FeedbackHost) (k : Nat) (s : State), s.engine.Inv → s.inputs = [] →
    ∃ (ws : List CmdWord) (rs : List Response) (t : State),
      runFeedback host k s = .next t ∧ core.run ws.length (s.presentAll ws) = .next t ∧
        ws.length ≤ k ∧ rs.length = ws.length ∧ t.responses = s.responses ++ rs ∧ (∀ r ∈ rs, r.valid) ∧
        t.inputs = [] ∧ t.engine.Inv ∧
        (∀ j, j < ws.length → host (s.responses ++ rs.take j) = ws[j]?) ∧
        (ws.length < k → host t.responses = none)

/-- `10_state.md` section 5 (R28): a response once given is never altered or withdrawn; a step adds at most one. R28
speaks of a later command. That the host's record stays across `rst` is the model's (log entry 11, DEDUCED), and
that it stays across a slot with nothing presented is too (log entry 4, DEDUCED). -/
def Obligations.ResponsesAreNeverAltered : Prop :=
  ∀ s t : State, step s = .next t →
    t.responses = s.responses ∨ ∃ r, t.responses = s.responses ++ [r] ∧ t.response = some r

/-- R112: a command that fails changes none of the five fields, and every later command behaves as if it had not
been issued: any sequence of commands run after it gives the same five fields and the same responses. -/
def Obligations.FailedCommandLeavesNoTrace : Prop :=
  ∀ (i : Instr) (s t : State), exec i s = .next t →
    (∃ r, t.response = some r ∧ r.status ≠ .ok) →
      t.engine = s.engine ∧
      ∀ js : List Instr, ∃ t' s' rs, execAll js t = .next t' ∧ execAll js s = .next s' ∧
        t'.engine = s'.engine ∧ rs.length = js.length ∧
        t'.responses = t.responses ++ rs ∧ s'.responses = s.responses ++ rs ∧
        (js ≠ [] → t'.response = s'.response)

/-- R111: the complete list of the causes of RangeError and their names; every other command answers OK. -/
def Obligations.RangeErrorCausesAreComplete : Prop :=
  (∀ n : Int, carriageCheck n = some .carriage ↔ n < 1 ∨ n > 6) ∧
  (∀ r : Int, registerCheck .setting r = some .registerIndex ↔ r < 1 ∨ r > 8) ∧
  (∀ r : Int, registerCheck .counting r = some .registerIndex ↔ r < 1 ∨ r > 6) ∧
  (∀ r : Int, registerCheck .result r = some .registerIndex ↔ r < 1 ∨ r > 11) ∧
  (∀ v : Int, digitCheck v = some .digitValue ↔ v < 0 ∨ v > 9) ∧
  (∀ n : Int, turnCheck n = some .turnCount ↔ n < 1) ∧
  ∀ (i : Instr) (s : State), ∃ t r, exec i s = .next t ∧ t.response = some r ∧
    (r.status = .rangeError ↔
      (∃ n, i = .setcar n ∧ (n < 1 ∨ n > 6)) ∨
      (∃ r, i = .rdsetd r ∧ (r < 1 ∨ r > 8)) ∨
      (∃ r, i = .rdcntd r ∧ (r < 1 ∨ r > 6)) ∨
      (∃ r, i = .rdresd r ∧ (r < 1 ∨ r > 11)) ∨
      (∃ r v, i = .setreg r v ∧ ((r < 1 ∨ r > 8) ∨ (v < 0 ∨ v > 9))) ∨
      (∃ n, i = .turn n ∧ n < 1)) ∧
    (r.status ≠ .rangeError → r.status = .ok) ∧
    (r.status = .rangeError → r.data = 0 ∧ t.engine = s.engine)

/-- `60_exceptions.md` section 3 (R115): SETREG checks the register index first. The names of the causes are the
model's (log entry 14): no response tells them apart. -/
def Obligations.SetregChecksRegisterFirst : Prop :=
  ∀ r v : Int,
    ((r < 1 ∨ r > 8) → setregCheck r v = some .registerIndex) ∧
    ((1 ≤ r ∧ r ≤ 8) → (v < 0 ∨ v > 9) → setregCheck r v = some .digitValue) ∧
    ((1 ≤ r ∧ r ≤ 8) → (0 ≤ v ∧ v ≤ 9) → setregCheck r v = none)

/-- `10_state.md` section 4 (R24): which command may write which field. -/
def Obligations.WritersOfEachField : Prop :=
  ∀ (i : Instr) (s t : State), exec i s = .next t →
    (t.engine.settingRegisters ≠ s.engine.settingRegisters → ∃ r v, i = .setreg r v) ∧
    (t.engine.countingRegisters ≠ s.engine.countingRegisters → (∃ n, i = .turn n) ∨ i = .clrcnt ∨ i = .clr) ∧
    (t.engine.resultRegisters ≠ s.engine.resultRegisters → (∃ n, i = .turn n) ∨ i = .clrres ∨ i = .clr) ∧
    (t.engine.carriageSetting ≠ s.engine.carriageSetting → ∃ n, i = .setcar n) ∧
    (t.engine.crankDown ≠ s.engine.crankDown → i = .lift ∨ i = .lower) ∧
    t.inputs = s.inputs

/-- R25: no command returns the crank; only a turn lets it act on another field; and the setting bank is changed
only digit by digit through SETREG. -/
def Obligations.CrankIsNeverReported : Prop :=
  (∀ (i : Instr) (s : State) (d : Bool), ∃ t t',
    exec i s = .next t ∧ exec i { s with engine := { s.engine with crankDown := d } } = .next t' ∧
      t'.response = t.response ∧
      ((∀ n, i ≠ .turn n) →
        t'.engine.settingRegisters = t.engine.settingRegisters ∧
        t'.engine.countingRegisters = t.engine.countingRegisters ∧
        t'.engine.resultRegisters = t.engine.resultRegisters ∧
        t'.engine.carriageSetting = t.engine.carriageSetting)) ∧
  (∀ (i : Instr) (s t : State), exec i s = .next t → s.engine.Inv →
    t.engine.settingRegisters ≠ s.engine.settingRegisters →
      ∃ r v, i = .setreg r v ∧
        ∀ q : Nat, 1 ≤ q → q ≤ 8 → (q : Int) ≠ r → t.engine.digitRead .setting q = s.engine.digitRead .setting q)

/-- R36: reads have no side effects and are idempotent. -/
def Obligations.ReadsAreIdempotent : Prop :=
  ∀ (i : Instr) (s : State),
    (i ∈ [Instr.rdcar, .rdset, .rdcnt, .rdres] ∨ ∃ r, i = .rdsetd r ∨ i = .rdcntd r ∨ i = .rdresd r) →
      ∃ t u, exec i s = .next t ∧ exec i t = .next u ∧
        t.engine = s.engine ∧ u.engine = s.engine ∧ u.response = t.response

/-! ### Carriage and crank -/

/-- R70. -/
def Obligations.RdcarReadsCarriage : Prop :=
  encode .rdcar = 0x01000000#32 ∧
  ∀ s : State, s.engine.Inv →
    ∃ r : Response, r.status = .ok ∧ r.data.toNat = s.engine.carriageSetting ∧
      1 ≤ r.data.toNat ∧ r.data.toNat ≤ 6 ∧ exec .rdcar s = .next (s.answer s.engine r)

/-- R71. -/
def Obligations.SetcarSetsCarriageOrFails : Prop :=
  (∀ n : Int, encode (.setcar n) = 0x02000000#32 ||| ((BitVec.ofInt 32 n &&& 0xFF#32) <<< 16)) ∧
  ∀ (n : Int) (s : State),
    (1 ≤ n ∧ n ≤ 6 →
      exec (.setcar n) s = .next (s.answer { s.engine with carriageSetting := n.toNat } ⟨.ok, 0⟩)) ∧
    (n < 1 ∨ n > 6 → exec (.setcar n) s = .next (s.answer s.engine ⟨.rangeError, 0⟩))

/-- R72. -/
def Obligations.LiftSelectsSubtraction : Prop :=
  encode .lift = 0x03000000#32 ∧
  ∀ s : State, exec .lift s = .next (s.answer { s.engine with crankDown := false } ⟨.ok, 0⟩)

/-- R73. -/
def Obligations.LowerSelectsAddition : Prop :=
  encode .lower = 0x04000000#32 ∧
  ∀ s : State, exec .lower s = .next (s.answer { s.engine with crankDown := true } ⟨.ok, 0⟩)

/-! ### Bank reads -/

/-- R81. -/
def Obligations.RdsetReadsSettingBank : Prop :=
  encode .rdset = 0x10000000#32 ∧
  ∀ s : State, s.engine.Inv →
    ∃ r : Response, r.status = .ok ∧ r.data.toNat = s.engine.settingRegisters ∧ r.data.toNat ≤ 99999999 ∧
      exec .rdset s = .next (s.answer s.engine r)

/-- R82. -/
def Obligations.RdsetdReadsSettingDigit : Prop :=
  (∀ r : Int, encode (.rdsetd r) = 0x11000000#32 ||| ((BitVec.ofInt 32 r &&& 0xFF#32) <<< 16)) ∧
  ∀ (r : Int) (s : State),
    (1 ≤ r ∧ r ≤ 8 →
      ∃ a : Response, a.status = .ok ∧ a.data.toNat = s.engine.settingRegisters / 10 ^ (r.toNat - 1) % 10 ∧
        a.data.toNat ≤ 9 ∧ exec (.rdsetd r) s = .next (s.answer s.engine a)) ∧
    (r < 1 ∨ r > 8 → exec (.rdsetd r) s = .next (s.answer s.engine ⟨.rangeError, 0⟩))

/-- R83. -/
def Obligations.RdcntReadsCountingBank : Prop :=
  encode .rdcnt = 0x12000000#32 ∧
  ∀ s : State, s.engine.Inv →
    ∃ r : Response, r.status = .ok ∧ r.data.toNat = s.engine.countingRegisters ∧ r.data.toNat ≤ 999999 ∧
      exec .rdcnt s = .next (s.answer s.engine r)

/-- R84. -/
def Obligations.RdcntdReadsCountingDigit : Prop :=
  (∀ r : Int, encode (.rdcntd r) = 0x13000000#32 ||| ((BitVec.ofInt 32 r &&& 0xFF#32) <<< 16)) ∧
  ∀ (r : Int) (s : State),
    (1 ≤ r ∧ r ≤ 6 →
      ∃ a : Response, a.status = .ok ∧ a.data.toNat = s.engine.countingRegisters / 10 ^ (r.toNat - 1) % 10 ∧
        a.data.toNat ≤ 9 ∧ exec (.rdcntd r) s = .next (s.answer s.engine a)) ∧
    (r < 1 ∨ r > 6 → exec (.rdcntd r) s = .next (s.answer s.engine ⟨.rangeError, 0⟩))

/-- R85. -/
def Obligations.RdresReadsResultBank : Prop :=
  encode .rdres = 0x14000000#32 ∧
  ∀ s : State, s.engine.Inv →
    ∃ r : Response, r.status = .ok ∧ r.data.toNat = s.engine.resultRegisters ∧ r.data.toNat ≤ 99999999999 ∧
      exec .rdres s = .next (s.answer s.engine r)

/-- R86. -/
def Obligations.RdresdReadsResultDigit : Prop :=
  (∀ r : Int, encode (.rdresd r) = 0x15000000#32 ||| ((BitVec.ofInt 32 r &&& 0xFF#32) <<< 16)) ∧
  ∀ (r : Int) (s : State),
    (1 ≤ r ∧ r ≤ 11 →
      ∃ a : Response, a.status = .ok ∧ a.data.toNat = s.engine.resultRegisters / 10 ^ (r.toNat - 1) % 10 ∧
        a.data.toNat ≤ 9 ∧ exec (.rdresd r) s = .next (s.answer s.engine a)) ∧
    (r < 1 ∨ r > 11 → exec (.rdresd r) s = .next (s.answer s.engine ⟨.rangeError, 0⟩))

/-- `41_bank_read.md` (R80): the whole-bank value is the weighted sum of the bank's digits. -/
def Obligations.BankIsSumOfItsDigits : Prop :=
  ∀ (c : CalculatorState) (b : Bank), c.Inv →
    c.bank b = ((List.range b.digits).map fun j => c.digitRead b (j + 1) * 10 ^ j).sum

/-! ### Bank write -/

/-- R90. -/
def Obligations.SetregReplacesOneDigitOrFails : Prop :=
  (∀ r v : Int, encode (.setreg r v) =
    0x20000000#32 ||| ((BitVec.ofInt 32 r &&& 0xFF#32) <<< 16) ||| (BitVec.ofInt 32 v &&& 0xFFFF#32)) ∧
  ∀ (r v : Int) (s : State), s.engine.Inv →
    (1 ≤ r ∧ r ≤ 8 ∧ 0 ≤ v ∧ v ≤ 9 →
      exec (.setreg r v) s = .next (s.answer
        { s.engine with
          settingRegisters :=
            s.engine.settingRegisters
              - s.engine.settingRegisters / 10 ^ (r.toNat - 1) % 10 * 10 ^ (r.toNat - 1)
              + v.toNat * 10 ^ (r.toNat - 1) } ⟨.ok, 0⟩)) ∧
    (r < 1 ∨ r > 8 ∨ v < 0 ∨ v > 9 →
      exec (.setreg r v) s = .next (s.answer s.engine ⟨.rangeError, 0⟩))

/-- `42_bank_write.md` (R91, first sentence) and `20_memory.md` section 4 (R43): the written digit reads back and every
other digit of every bank reads as before. -/
def Obligations.SetregThenReadDigit : Prop :=
  ∀ (r v : Int) (s : State), s.engine.Inv → 1 ≤ r → r ≤ 8 → 0 ≤ v → v ≤ 9 →
    ∃ t, exec (.setreg r v) s = .next t ∧
      (∃ a u, exec (.rdsetd r) t = .next u ∧ u.response = some a ∧ a.status = .ok ∧ (a.data.toNat : Int) = v) ∧
      (∀ q : Int, 1 ≤ q → q ≤ 8 → q ≠ r → ∃ u u', exec (.rdsetd q) t = .next u ∧
        exec (.rdsetd q) s = .next u' ∧ u.response = u'.response) ∧
      t.engine.countingRegisters = s.engine.countingRegisters ∧
      t.engine.resultRegisters = s.engine.resultRegisters ∧
      (∀ q : Nat, 1 ≤ q → q ≤ 6 → t.engine.digitRead .counting q = s.engine.digitRead .counting q) ∧
      (∀ q : Nat, 1 ≤ q → q ≤ 11 → t.engine.digitRead .result q = s.engine.digitRead .result q)

/-- `42_bank_write.md` (R91, consequences): writes to different digits commute, and a later write to the same digit
overwrites the earlier. -/
def Obligations.SetregsCommuteAndOverwrite : Prop :=
  ∀ (r v q x : Int) (s : State), s.engine.Inv →
    1 ≤ r → r ≤ 8 → 0 ≤ v → v ≤ 9 → 1 ≤ q → q ≤ 8 → 0 ≤ x → x ≤ 9 →
      ∃ t t' t'', execAll [.setreg r v, .setreg q x] s = .next t ∧ execAll [.setreg q x, .setreg r v] s = .next t' ∧
        exec (.setreg q x) s = .next t'' ∧
        (r ≠ q → t.engine = t'.engine) ∧ (r = q → t.engine = t''.engine)

/-- `42_bank_write.md` (R91, consequences): any setting is reached from any other by at most eight SETREGs. -/
def Obligations.EightSetregsReachAnySetting : Prop :=
  ∀ (s : State) (n : Nat), s.engine.Inv → n < 10 ^ 8 →
    ∃ is : List Instr, is.length ≤ 8 ∧ (∀ i ∈ is, ∃ r v, i = .setreg r v) ∧
      ∃ t, execAll is s = .next t ∧ t.engine = { s.engine with settingRegisters := n }

/-! ### Clearing -/

/-- R95. -/
def Obligations.ClrcntClearsCounting : Prop :=
  encode .clrcnt = 0x30000000#32 ∧
  ∀ s : State, exec .clrcnt s = .next (s.answer { s.engine with countingRegisters := 0 } ⟨.ok, 0⟩)

/-- R96. -/
def Obligations.ClrresClearsResult : Prop :=
  encode .clrres = 0x31000000#32 ∧
  ∀ s : State, exec .clrres s = .next (s.answer { s.engine with resultRegisters := 0 } ⟨.ok, 0⟩)

/-- R97: both banks in one transition; the end state is that of the two single clears in either order. -/
def Obligations.ClrClearsBothAtOnce : Prop :=
  encode .clr = 0x32000000#32 ∧
  ∀ s : State,
    exec .clr s =
      .next (s.answer { s.engine with countingRegisters := 0, resultRegisters := 0 } ⟨.ok, 0⟩) ∧
    ∃ t t', execAll [.clrcnt, .clrres] s = .next t ∧ execAll [.clrres, .clrcnt] s = .next t' ∧
      t.engine = { s.engine with countingRegisters := 0, resultRegisters := 0 } ∧
      t'.engine = { s.engine with countingRegisters := 0, resultRegisters := 0 }

/-! ### Turn -/

/-- R100. -/
def Obligations.TurnAddsWeightedSettingOrFails : Prop :=
  (∀ n : Int, encode (.turn n) = 0x40000000#32 ||| (BitVec.ofInt 32 n &&& 0xFFFF#32)) ∧
  ∀ (n : Int) (s : State), s.engine.Inv →
    let w : Int := n * (10 ^ (s.engine.carriageSetting - 1) : Nat) * (if s.engine.crankDown then 1 else -1)
    (1 ≤ n →
      exec (.turn n) s = .next (s.answer
        { s.engine with
          countingRegisters := (((s.engine.countingRegisters : Int) + w) % 1000000).toNat
          resultRegisters :=
            (((s.engine.resultRegisters : Int) + (s.engine.settingRegisters : Int) * w) % 100000000000).toNat }
        ⟨.ok, 0⟩)) ∧
    (n < 1 → exec (.turn n) s = .next (s.answer s.engine ⟨.rangeError, 0⟩))

/-- R101: the bounds of the intermediates of an expressible turn, which all fit a signed 64-bit word. -/
def Obligations.TurnIntermediatesFit : Prop :=
  (∀ d : Bool, multiplier d = 1 ∨ multiplier d = -1) ∧
  ∀ (n : Int) (c : CalculatorState), c.Inv → 1 ≤ n → n ≤ 32767 →
    1 ≤ |turnWeight n c| ∧ |turnWeight n c| ≤ 3276700000 ∧ |turnWeight n c| < 2 ^ 32 ∧
    |turnValue n c| ≤ 327669996723300000 ∧ |turnValue n c| < 2 ^ 59 ∧
    |(c.countingRegisters : Int) + turnWeight n c| < 2 ^ 32 ∧
    |(c.resultRegisters : Int) + turnValue n c| < 2 ^ 59 ∧
    (BitVec.ofInt 64 (turnWeight n c)).toInt = turnWeight n c ∧
    (BitVec.ofInt 64 (turnValue n c)).toInt = turnValue n c ∧
    (BitVec.ofNat 64 c.countingRegisters + BitVec.ofInt 64 (turnWeight n c)).toInt =
      (c.countingRegisters : Int) + turnWeight n c ∧
    (BitVec.ofNat 64 c.resultRegisters + BitVec.ofInt 64 (turnValue n c)).toInt =
      (c.resultRegisters : Int) + turnValue n c

/-- `44_turn.md` (R102): where the reduction happens does not matter, and with the crank up the ten's complement may
be added instead. -/
def Obligations.ReductionPlaceDoesNotMatter : Prop :=
  ∀ (n : Int) (s : State), s.engine.Inv → 1 ≤ n →
    ∃ t, exec (.turn n) s = .next t ∧
      let c := s.engine
      let m : Int := if c.crankDown then 1 else -1
      let p : Int := (10 ^ (c.carriageSetting - 1) : Nat)
      (t.engine.countingRegisters : Int) =
        ((c.countingRegisters : Int) + n % 1000000 * (p % 1000000) * m) % 1000000 ∧
      (t.engine.resultRegisters : Int) =
        ((c.resultRegisters : Int)
          + ((c.settingRegisters : Int) * (n * p % 100000000000)) % 100000000000 * m) % 100000000000 ∧
      (c.crankDown = false →
        (t.engine.countingRegisters : Int) =
          ((c.countingRegisters : Int) + (1000000 - n * p % 1000000)) % 1000000 ∧
        (t.engine.resultRegisters : Int) =
          ((c.resultRegisters : Int)
            + (100000000000 - (c.settingRegisters : Int) * (n * p) % 100000000000)) % 100000000000)

/-- R103: a wrap is silent and leaves the other bank alone: each bank's new value depends on its own inputs only. -/
def Obligations.TurnBanksAreIndependent : Prop :=
  ∀ (n : Int) (s s' : State), 1 ≤ n →
    ∃ t t', exec (.turn n) s = .next t ∧ exec (.turn n) s' = .next t' ∧
      t.response = some ⟨.ok, 0⟩ ∧
      (s.engine.countingRegisters = s'.engine.countingRegisters →
        s.engine.carriageSetting = s'.engine.carriageSetting → s.engine.crankDown = s'.engine.crankDown →
          t.engine.countingRegisters = t'.engine.countingRegisters) ∧
      (s.engine.resultRegisters = s'.engine.resultRegisters →
        s.engine.settingRegisters = s'.engine.settingRegisters →
        s.engine.carriageSetting = s'.engine.carriageSetting → s.engine.crankDown = s'.engine.crankDown →
          t.engine.resultRegisters = t'.engine.resultRegisters)

/-- R104: two turns add up, and n single turns are one turn of n. -/
def Obligations.TurnsAddUp : Prop :=
  (∀ (m n : Int) (s : State), 1 ≤ m → 1 ≤ n →
    ∃ t t', execAll [.turn m, .turn n] s = .next t ∧ exec (.turn (m + n)) s = .next t' ∧ t.engine = t'.engine) ∧
  (∀ (k : Nat) (s : State), 1 ≤ k →
    ∃ t t', execAll (List.replicate k (.turn 1)) s = .next t ∧ exec (.turn (k : Int)) s = .next t' ∧
      t.engine = t'.engine)

/-- `44_turn.md` (R105): a turn with the crank reversed undoes a turn, across wraps too, in both orders. -/
def Obligations.CrankReversalUndoesTurn : Prop :=
  ∀ (n : Int) (s : State), s.engine.Inv → 1 ≤ n →
    (s.engine.crankDown = true →
      ∃ t, execAll [.turn n, .lift, .turn n] s = .next t ∧ t.engine = { s.engine with crankDown := false }) ∧
    (s.engine.crankDown = false →
      ∃ t, execAll [.turn n, .lower, .turn n] s = .next t ∧ t.engine = { s.engine with crankDown := true })

/-- `44_turn.md` (R106): over any sequence of turns, carriage and crank commands and reads, the two banks move by the
total weight `W` and by `S * W`, each modulo its own modulus; from cleared banks and without a wrap the result bank
holds the product. -/
def Obligations.ProductLaw : Prop :=
  ∀ (is : List Instr) (s : State), s.engine.Inv → (∀ i ∈ is, keepsProduct i = true) →
    ∃ t, execAll is s = .next t ∧
      let W := totalWeight is s.engine.carriageSetting s.engine.crankDown
      t.engine.settingRegisters = s.engine.settingRegisters ∧
      (t.engine.countingRegisters : Int) = ((s.engine.countingRegisters : Int) + W) % 1000000 ∧
      (t.engine.resultRegisters : Int) =
        ((s.engine.resultRegisters : Int) + (s.engine.settingRegisters : Int) * W) % 100000000000 ∧
      (s.engine.countingRegisters = 0 → s.engine.resultRegisters = 0 → 0 ≤ W → W < 1000000 →
        (s.engine.settingRegisters : Int) * W < 100000000000 →
          (t.engine.countingRegisters : Int) = W ∧
          (t.engine.resultRegisters : Int) = (s.engine.settingRegisters : Int) * W)

/-! ### Normalisation and the digit codec -/

/-- R20, R9: the normalisation is the true modulo, and the source's formula with the truncating remainder gives the
same. -/
def Obligations.NormIsTrueModulo : Prop :=
  (∀ (b : Bank) (v : Int), b ≠ .setting →
    (norm b v : Int) < (b.modulus : Int) ∧ (b.modulus : Int) ∣ v - (norm b v : Int) ∧
    (norm b v : Int) = v % (b.modulus : Int) ∧
    (norm b v : Int) = ((v.tmod (b.modulus : Int)) + (b.modulus : Int)).tmod (b.modulus : Int)) ∧
  Bank.counting.modulus = 1000000 ∧ Bank.result.modulus = 100000000000 ∧
  norm .counting (-1) = 999999 ∧ norm .counting (-1000001) = 999999 ∧ norm .counting 2000005 = 5 ∧
  norm .result (-50) = 99999999950 ∧ norm .result 100000000000 = 0

/-- `10_state.md` section 2 (R17): the codec's digits and the addressed digit read. R17 speaks of values below
`10^size` and of banks in their ranges. For `n` of more than `size` digits (U4) and for a bank outside R16, that the
formula still gives the value is the model's choice (log entry 10, DESIGN CHOICE). -/
def Obligations.DigitArrayHoldsTheDigits : Prop :=
  (∀ n size : Nat, (toDigitArray n size).length = size ∧
    (∀ i, i < size → (toDigitArray n size)[i]? = some (n / 10 ^ i % 10)) ∧
    (∀ i, i < size → n < 10 ^ i → (toDigitArray n size)[i]? = some 0)) ∧
  (∀ (c : CalculatorState) (b : Bank) (r : Nat), 1 ≤ r → r ≤ b.digits →
    (toDigitArray (c.bank b) b.digits)[r - 1]? = some (c.digitRead b r) ∧
    c.digitRead b r = c.bank b / 10 ^ (r - 1) % 10 ∧ c.digitRead b r ≤ 9)

/-- `10_state.md` section 2 (R19): the codec's encode direction, its round trip, and that the two views of a bank are a
bijection. The first clause holds for arrays holding a non-digit too, where U4 and N24 leave the value open: there the
formula's sum is the model's choice (log entry 17, DESIGN CHOICE). -/
def Obligations.CodecRoundTrip : Prop :=
  (∀ ds : List Nat, toDecimal ds = ((List.range ds.length).map fun i => ds.getD i 0 * 10 ^ i).sum) ∧
  (∀ x size : Nat, x < 10 ^ size →
    toDecimal (toDigitArray x size) = x ∧ ∀ d ∈ toDigitArray x size, d ≤ 9) ∧
  (∀ ds : List Nat, (∀ d ∈ ds, d ≤ 9) →
    toDecimal ds < 10 ^ ds.length ∧ toDigitArray (toDecimal ds) ds.length = ds)

/-- R18: the digit write in closed form; the digit it writes and the digits it leaves. -/
def Obligations.DigitWriteReplacesOneDigit : Prop :=
  ∀ n r v : Nat, n < 10 ^ 8 → 1 ≤ r → r ≤ 8 → v ≤ 9 →
    digitWrite n r v = n - n / 10 ^ (r - 1) % 10 * 10 ^ (r - 1) + v * 10 ^ (r - 1) ∧
    digitWrite n r v < 10 ^ 8 ∧
    digitWrite n r v / 10 ^ (r - 1) % 10 = v ∧
    ∀ q, 1 ≤ q → q ≤ 8 → q ≠ r → digitWrite n r v / 10 ^ (q - 1) % 10 = n / 10 ^ (q - 1) % 10
end

