-- ==== Sys2Proof/Laws/State.lean ====
section
/-! SUPPORT. One lemma per field per update of the state, so that no later proof unfolds a record update. -/

namespace Sys2Proof.Machine

variable (s : State) (c : CalculatorState) (u : PartialUpdate) (st : Status) (d : Nat) (r : Response) (w : CmdWord)

@[simp] theorem merge_setting : (c.merge u).settingRegisters = u.setting.getD c.settingRegisters := rfl
@[simp] theorem merge_counting :
    (c.merge u).countingRegisters = (u.counting.map (norm .counting)).getD c.countingRegisters := rfl
@[simp] theorem merge_result :
    (c.merge u).resultRegisters = (u.result.map (norm .result)).getD c.resultRegisters := rfl
@[simp] theorem merge_carriage : (c.merge u).carriageSetting = u.carriage.getD c.carriageSetting := rfl
@[simp] theorem merge_crank : (c.merge u).crankDown = u.crank.getD c.crankDown := rfl

@[simp] theorem commit_engine : (s.commit u).engine = s.engine.merge u := rfl
@[simp] theorem commit_inputs : (s.commit u).inputs = s.inputs := rfl
@[simp] theorem commit_response : (s.commit u).response = s.response := rfl
@[simp] theorem commit_responses : (s.commit u).responses = s.responses := rfl

@[simp] theorem respond_engine : (s.respond st d).engine = s.engine := rfl
@[simp] theorem respond_inputs : (s.respond st d).inputs = s.inputs := rfl
@[simp] theorem respond_response : (s.respond st d).response = some (mkResponse st d) := rfl
@[simp] theorem respond_responses : (s.respond st d).responses = s.responses ++ [mkResponse st d] := rfl

@[simp] theorem mkResponse_status : (mkResponse st d).status = st := rfl
@[simp] theorem mkResponse_data : (mkResponse st d).data = BitVec.ofNat 37 d := rfl

@[simp] theorem answer_engine : (s.answer c r).engine = c := rfl
@[simp] theorem answer_inputs : (s.answer c r).inputs = s.inputs := rfl
@[simp] theorem answer_response : (s.answer c r).response = some r := rfl
@[simp] theorem answer_responses : (s.answer c r).responses = s.responses ++ [r] := rfl

@[simp] theorem resetEvent_engine : s.resetEvent.engine = CalculatorState.initial := rfl
@[simp] theorem resetEvent_inputs : s.resetEvent.inputs = s.inputs := rfl
@[simp] theorem resetEvent_response : s.resetEvent.response = none := rfl
@[simp] theorem resetEvent_responses : s.resetEvent.responses = s.responses := rfl

@[simp] theorem idle_engine : s.idle.engine = s.engine := rfl
@[simp] theorem idle_inputs : s.idle.inputs = s.inputs := rfl
@[simp] theorem idle_response : s.idle.response = none := rfl
@[simp] theorem idle_responses : s.idle.responses = s.responses := rfl

@[simp] theorem present_engine : (s.present w).engine = s.engine := rfl
@[simp] theorem present_inputs : (s.present w).inputs = PortsIn.ofCommand w :: s.inputs := rfl
@[simp] theorem present_response : (s.present w).response = s.response := rfl
@[simp] theorem present_responses : (s.present w).responses = s.responses := rfl

/-- A commit followed by a response, as one answer. -/
theorem respond_commit_eq_answer :
    (s.commit u).respond st d = s.answer (s.engine.merge u) (mkResponse st d) := rfl

/-- A response alone, as an answer that leaves the five fields. -/
theorem respond_eq_answer : s.respond st d = s.answer s.engine (mkResponse st d) := rfl

end Sys2Proof.Machine
end

