-- ==== Sys2Proof/Laws/Ops.lean ====
section
/-! SUPPORT. One lemma per shared operation that says once what it can do. -/

namespace Sys2Proof.Machine

@[simp] theorem digits_setting : Bank.setting.digits = 8 := rfl
@[simp] theorem digits_counting : Bank.counting.digits = 6 := rfl
@[simp] theorem digits_result : Bank.result.digits = 11 := rfl

theorem modulus_pos (b : Bank) : 0 < b.modulus := Nat.pow_pos (by decide)

/-- `norm` as an integer. -/
theorem coe_norm (b : Bank) (v : Int) : (norm b v : Int) = v % (b.modulus : Int) :=
  Int.toNat_of_nonneg (Int.emod_nonneg _ (by exact_mod_cast (modulus_pos b).ne'))

/-- A normalised value is below the bank's modulus. -/
theorem norm_lt (b : Bank) (v : Int) : norm b v < b.modulus := by
  have h := Int.emod_lt_of_pos v (by exact_mod_cast modulus_pos b : (0 : Int) < (b.modulus : Int))
  rw [← coe_norm] at h
  exact_mod_cast h

@[simp] theorem norm_zero (b : Bank) : norm b 0 = 0 := by simp [norm]

/-- An addressed digit is 0 to 9. -/
theorem digitRead_lt (c : CalculatorState) (b : Bank) (r : Nat) : c.digitRead b r < 10 :=
  Nat.mod_lt _ (by decide)

theorem carriageCheck_eq_none {n : Int} : carriageCheck n = none ↔ 1 ≤ n ∧ n ≤ 6 := by
  have lo : ((Config.carriageMin : Nat) : Int) = 1 := rfl
  have hi : ((Config.carriageMax : Nat) : Int) = 6 := rfl
  simp only [carriageCheck, lo, hi, ite_eq_right_iff, reduceCtorEq, imp_false]
  omega

theorem registerCheck_eq_none {b : Bank} {r : Int} : registerCheck b r = none ↔ 1 ≤ r ∧ r ≤ (b.digits : Int) := by
  simp only [registerCheck, ite_eq_right_iff, reduceCtorEq, imp_false]
  omega

theorem digitCheck_eq_none {v : Int} : digitCheck v = none ↔ 0 ≤ v ∧ v ≤ 9 := by
  simp only [digitCheck, ite_eq_right_iff, reduceCtorEq, imp_false]
  omega

theorem registerCheck_of_out {b : Bank} {r : Int} (h : r < 1 ∨ (b.digits : Int) < r) :
    registerCheck b r = some .registerIndex := by
  rw [registerCheck, if_pos h]

theorem digitCheck_of_out {v : Int} (h : v < 0 ∨ 9 < v) : digitCheck v = some .digitValue := by
  rw [digitCheck, if_pos h]

theorem turnCheck_eq_none {n : Int} : turnCheck n = none ↔ 1 ≤ n := by
  simp only [turnCheck, ite_eq_right_iff, reduceCtorEq, imp_false]
  omega

theorem setregCheck_eq_none {r v : Int} : setregCheck r v = none ↔ (1 ≤ r ∧ r ≤ 8) ∧ 0 ≤ v ∧ v ≤ 9 := by
  have h := registerCheck_eq_none (b := .setting) (r := r)
  rw [show ((Bank.setting.digits : Nat) : Int) = 8 from rfl] at h
  rw [← digitCheck_eq_none, ← h]
  cases hr : registerCheck .setting r <;> simp [setregCheck, hr]

/-- A command with a range check either fails with the one failure's answer, or acts. -/
theorem checked_cases (s : State) (check : Option RangeCause) (action : State → State) :
    (check ≠ none ∧ s.checked check action = s.answer s.engine (mkResponse .rangeError 0)) ∨
      (check = none ∧ s.checked check action = action s) := by
  cases check with
  | none => exact .inr ⟨rfl, rfl⟩
  | some cause => exact .inl ⟨by simp, rfl⟩

theorem checked_of_none {s : State} {check : Option RangeCause} (h : check = none) (action : State → State) :
    s.checked check action = action s := by rw [h]; rfl

theorem checked_of_ne_none {s : State} {check : Option RangeCause} (h : check ≠ none) (action : State → State) :
    s.checked check action = s.answer s.engine (mkResponse .rangeError 0) := by
  rcases checked_cases s check action with ⟨-, h'⟩ | ⟨h', -⟩
  · exact h'
  · exact absurd h' h

/-- What the next slot presents, by the form of the host's sequence. -/
theorem takeInput_nil {s : State} (h : s.inputs = []) : s.takeInput = (.nothing, s) := by
  simp [State.takeInput, h]

theorem takeInput_cons {s : State} {p : PortsIn} {rest : List PortsIn} (h : s.inputs = p :: rest) :
    s.takeInput = (p.presented, { s with inputs := rest }) := by
  simp [State.takeInput, h]

@[simp] theorem presented_ofCommand (w : CmdWord) : (PortsIn.ofCommand w).presented = .command w := rfl

@[simp] theorem takeInput_present (s : State) (w : CmdWord) : (s.present w).takeInput = (.command w, s) := rfl

end Sys2Proof.Machine
end

