-- ==== Sys2Proof/Laws/Codec.lean ====
section
/-! SUPPORT. The digit codec one digit at a time, units digit first: the recursions every proof about it goes
through. -/

namespace Sys2Proof.Machine

theorem toDecimalFrom_eq_mul (i : Nat) (ds : List Nat) : toDecimalFrom i ds = 10 ^ i * toDecimal ds := by
  induction ds generalizing i with
  | nil => rfl
  | cons d ds ih =>
    simp only [toDecimal, toDecimalFrom, ih (i + 1), ih (0 + 1)]
    rw [pow_succ]
    ring

@[simp] theorem toDecimal_nil : toDecimal [] = 0 := rfl

@[simp] theorem toDecimal_cons (d : Nat) (ds : List Nat) : toDecimal (d :: ds) = d + 10 * toDecimal ds := by
  rw [toDecimal, toDecimalFrom, toDecimalFrom_eq_mul]
  ring

@[simp] theorem toDigitArray_zero (n : Nat) : toDigitArray n 0 = [] := rfl

@[simp] theorem toDigitArray_succ (n k : Nat) : toDigitArray n (k + 1) = n % 10 :: toDigitArray (n / 10) k := by
  simp only [toDigitArray, List.range_succ_eq_map, List.map_cons, List.map_map, pow_zero, Nat.div_one]
  congr 1
  refine List.map_congr_left fun i _ => ?_
  simp [pow_succ', Nat.div_div_eq_div_mul]

end Sys2Proof.Machine
end

