-- ==== Sys2Proof/Laws/Decode.lean ====
section
/-! SUPPORT. The fields of a packed word, the two's-complement values of the fields, and the word in the shift-and-or
form of the command rules. -/

namespace Sys2Proof

theorem sext_eq_toInt {n : Nat} (hn : 0 < n) (v : BitVec n) : sext v = v.toInt := by
  have h : 2 ^ n = 2 * 2 ^ (n - 1) := by rw [← Nat.pow_succ']; congr 1; omega
  unfold sext
  rw [BitVec.toInt_eq_toNat_cond]
  by_cases hv : v.toNat < 2 ^ (n - 1)
  · rw [if_pos hv, if_pos (by omega)]
  · rw [if_neg hv, if_neg (by omega)]

/-- A bit of a word made of three fields. -/
theorem getLsbD_threeFields (op a : BitVec 8) (b : BitVec 16) (i : Nat) :
    (op ++ a ++ b : BitVec 32).getLsbD i =
      if i < 16 then b.getLsbD i else if i - 16 < 8 then a.getLsbD (i - 16) else op.getLsbD (i - 16 - 8) := by
  have outer := BitVec.getLsbD_append (x := op ++ a) (y := b) (i := i)
  have inner := BitVec.getLsbD_append (x := op) (y := a) (i := i - 16)
  rw [inner] at outer
  exact outer

@[simp] theorem fieldOp_threeFields (op a : BitVec 8) (b : BitVec 16) :
    fieldOp (op ++ a ++ b : BitVec 32) = op := by
  refine BitVec.eq_of_getLsbD_eq fun i hi => ?_
  rw [fieldOp, BitVec.getLsbD_extractLsb', getLsbD_threeFields, if_neg (by omega), if_neg (by omega)]
  simp [hi, show 24 + i - 16 - 8 = i by omega]

@[simp] theorem fieldA_threeFields (op a : BitVec 8) (b : BitVec 16) :
    fieldA (op ++ a ++ b : BitVec 32) = a := by
  refine BitVec.eq_of_getLsbD_eq fun i hi => ?_
  rw [fieldA, BitVec.getLsbD_extractLsb', getLsbD_threeFields, if_neg (by omega), if_pos (by omega)]
  simp [hi]

@[simp] theorem fieldB_threeFields (op a : BitVec 8) (b : BitVec 16) :
    fieldB (op ++ a ++ b : BitVec 32) = b := by
  refine BitVec.eq_of_getLsbD_eq fun i hi => ?_
  rw [fieldB, BitVec.getLsbD_extractLsb', getLsbD_threeFields, if_pos (by omega)]
  simp [hi]

@[simp] theorem fieldOp_packWord (op : BitVec 8) (a b : Int) : fieldOp (packWord op a b) = op :=
  fieldOp_threeFields ..

@[simp] theorem fieldA_packWord (op : BitVec 8) (a b : Int) : fieldA (packWord op a b) = BitVec.ofInt 8 a :=
  fieldA_threeFields ..

@[simp] theorem fieldB_packWord (op : BitVec 8) (a b : Int) : fieldB (packWord op a b) = BitVec.ofInt 16 b :=
  fieldB_threeFields ..

/-- A word is its three fields. -/
theorem fields_append (w : CmdWord) : (fieldOp w ++ fieldA w ++ fieldB w : BitVec 32) = w := by
  refine BitVec.eq_of_getLsbD_eq fun i hi => ?_
  rw [getLsbD_threeFields]
  simp only [fieldOp, fieldA, fieldB, BitVec.getLsbD_extractLsb']
  split
  · simp [*]
  · split
    · simp [*, show 16 + (i - 16) = i by omega]
    · simp [show 24 + (i - 16 - 8) = i by omega, show i - 16 - 8 < 8 by omega]

/-- Two words are equal exactly when their fields are. -/
theorem threeFields_inj {op op' a a' : BitVec 8} {b b' : BitVec 16} :
    (op ++ a ++ b : BitVec 32) = (op' ++ a' ++ b' : BitVec 32) ↔ op = op' ∧ a = a' ∧ b = b' := by
  constructor
  · intro h
    exact ⟨by simpa using congrArg fieldOp h, by simpa using congrArg fieldA h, by simpa using congrArg fieldB h⟩
  · rintro ⟨rfl, rfl, rfl⟩; rfl

/-- A mask acts on each field. -/
theorem threeFields_and (op op' a a' : BitVec 8) (b b' : BitVec 16) :
    (op ++ a ++ b : BitVec 32) &&& (op' ++ a' ++ b' : BitVec 32) =
      ((op &&& op') ++ (a &&& a') ++ (b &&& b') : BitVec 32) := by
  refine BitVec.eq_of_getLsbD_eq fun i hi => ?_
  rw [BitVec.getLsbD_and]
  simp only [getLsbD_threeFields, BitVec.getLsbD_and]
  split <;> [skip; split] <;> rfl

/-- A row of the opcode table, field by field. -/
theorem and_mask_eq_iff (w mask bits : CmdWord) :
    w &&& mask = bits ↔ fieldOp w &&& fieldOp mask = fieldOp bits ∧ fieldA w &&& fieldA mask = fieldA bits ∧
      fieldB w &&& fieldB mask = fieldB bits := by
  have h := threeFields_and (fieldOp w) (fieldOp mask) (fieldA w) (fieldA mask) (fieldB w) (fieldB mask)
  rw [fields_append, fields_append] at h
  rw [h, ← fields_append bits, threeFields_inj]
  simp only [fieldOp_threeFields, fieldA_threeFields, fieldB_threeFields]

/-- The low 24 bits are zero exactly when both operand fields are. -/
theorem low24_eq_zero_iff (w : CmdWord) : w.extractLsb' 0 24 = 0#24 ↔ fieldA w = 0#8 ∧ fieldB w = 0#16 := by
  constructor
  · intro h
    have bit (i : Nat) (hi : i < 24) : w.getLsbD i = false := by
      have := congrArg (fun v => v.getLsbD i) h
      simpa [hi] using this
    constructor
    · refine BitVec.eq_of_getLsbD_eq fun i hi => ?_
      simp [fieldA, BitVec.getLsbD_extractLsb', bit (16 + i) (by omega)]
    · refine BitVec.eq_of_getLsbD_eq fun i hi => ?_
      simp [fieldB, BitVec.getLsbD_extractLsb', bit i (by omega)]
  · rintro ⟨ha, hb⟩
    refine BitVec.eq_of_getLsbD_eq fun i hi => ?_
    have hw := getLsbD_threeFields (fieldOp w) (fieldA w) (fieldB w) i
    rw [fields_append, ha, hb] at hw
    rw [BitVec.getLsbD_extractLsb', Nat.zero_add, hw]
    split
    · simp
    · rw [if_pos (by omega)]; simp

theorem sext_ofInt8 {a : Int} (h : fitsA a = true) : sext (BitVec.ofInt 8 a) = a := by
  simp only [fitsA, Bool.and_eq_true, decide_eq_true_eq] at h
  rw [sext_eq_toInt (by decide), BitVec.toInt_ofInt, Int.bmod_eq_of_le] <;> omega

theorem sext_ofInt16 {b : Int} (h : fitsB b = true) : sext (BitVec.ofInt 16 b) = b := by
  simp only [fitsB, Bool.and_eq_true, decide_eq_true_eq] at h
  rw [sext_eq_toInt (by decide), BitVec.toInt_ofInt, Int.bmod_eq_of_le] <;> omega

theorem ofInt_sext8 (v : BitVec 8) : BitVec.ofInt 8 (sext v) = v := by
  rw [sext_eq_toInt (by decide)]; exact BitVec.ofInt_toInt

theorem ofInt_sext16 (v : BitVec 16) : BitVec.ofInt 16 (sext v) = v := by
  rw [sext_eq_toInt (by decide)]; exact BitVec.ofInt_toInt

theorem fitsA_sext (v : BitVec 8) : fitsA (sext v) = true := by
  have := v.isLt
  unfold fitsA sext
  by_cases h : v.toNat < 2 ^ (8 - 1)
  · rw [if_pos h]; simp; omega
  · rw [if_neg h]; simp; omega

theorem fitsB_sext (v : BitVec 16) : fitsB (sext v) = true := by
  have := v.isLt
  unfold fitsB sext
  by_cases h : v.toNat < 2 ^ (16 - 1)
  · rw [if_pos h]; simp; omega
  · rw [if_neg h]; simp; omega

/-- Every value of the 16-bit field is within `TURN_MAX`. -/
theorem fitsTurn_iff_fitsB (n : Int) : fitsTurn n = true ↔ fitsB n = true := by
  have h : ((Config.turnMax : Nat) : Int) = 32767 := rfl
  simp only [fitsTurn, fitsB, h, Bool.and_eq_true, decide_eq_true_eq]
  omega

theorem ofInt_and_0xFF (a : Int) : BitVec.ofInt 32 a &&& 0xFF#32 = (BitVec.ofInt 8 a).setWidth 32 := by
  apply BitVec.eq_of_toNat_eq
  rw [BitVec.toNat_and, show (0xFF#32).toNat = 2 ^ 8 - 1 from rfl, Nat.and_two_pow_sub_one_eq_mod,
    BitVec.toNat_setWidth, BitVec.toNat_ofInt, BitVec.toNat_ofInt]
  omega

theorem ofInt_and_0xFFFF (b : Int) : BitVec.ofInt 32 b &&& 0xFFFF#32 = (BitVec.ofInt 16 b).setWidth 32 := by
  apply BitVec.eq_of_toNat_eq
  rw [BitVec.toNat_and, show (0xFFFF#32).toNat = 2 ^ 16 - 1 from rfl, Nat.and_two_pow_sub_one_eq_mod,
    BitVec.toNat_setWidth, BitVec.toNat_ofInt, BitVec.toNat_ofInt]
  omega

/-- The packed word in the form of the command rules, `op << 24 | (A AND 0xFF) << 16 | (B AND 0xFFFF)`. -/
theorem packWord_eq_or (op : BitVec 8) (a b : Int) :
    packWord op a b = (op.setWidth 32 <<< 24) ||| ((BitVec.ofInt 32 a &&& 0xFF#32) <<< 16) |||
      (BitVec.ofInt 32 b &&& 0xFFFF#32) := by
  rw [ofInt_and_0xFF, ofInt_and_0xFFFF]
  refine BitVec.eq_of_getLsbD_eq fun i hi => ?_
  rw [show packWord op a b = (op ++ BitVec.ofInt 8 a ++ BitVec.ofInt 16 b : BitVec 32) from rfl, getLsbD_threeFields]
  simp only [BitVec.getLsbD_or, BitVec.getLsbD_shiftLeft, BitVec.getLsbD_setWidth, hi, decide_true, Bool.true_and]
  by_cases h16 : i < 16
  · simp [h16, show i < 24 by omega]
  · by_cases h24 : i < 24
    · simp [h16, h24, show i - 16 < 8 by omega, show i - 16 < 32 by omega,
        BitVec.getLsbD_of_ge (BitVec.ofInt 16 b) i (by omega)]
    · simp [h16, h24, show ¬(i - 16 < 8) by omega, show i - 24 < 32 by omega, show i - 16 - 8 = i - 24 by omega,
        BitVec.getLsbD_of_ge (BitVec.ofInt 16 b) i (by omega), BitVec.getLsbD_of_ge (BitVec.ofInt 8 a) (i - 16) (by omega)]

end Sys2Proof
end

