-- ==== Sys2Proof/Laws/Exec.lean ====
section
/-! SUPPORT. What a command and a step can do, said once: a command always answers; a step answers, resets, idles,
or stops on a command under `rst`. -/

namespace Sys2Proof.Machine

/-- The range check of each command (`60_exceptions.md` R111), for the lemmas below. -/
def rangeCheck : Instr → Option RangeCause
  | .setcar n => carriageCheck n
  | .rdsetd r => registerCheck .setting r
  | .rdcntd r => registerCheck .counting r
  | .rdresd r => registerCheck .result r
  | .setreg r v => setregCheck r v
  | .turn n => turnCheck n
  | _ => none

/-- A command whose operands are out of its domain changes nothing and answers RangeError. -/
theorem exec_of_out_of_domain {i : Instr} (h : rangeCheck i ≠ none) (s : State) :
    exec i s = .next (s.answer s.engine (mkResponse .rangeError 0)) := by
  have fail (action : State → State) :
      (Host.Outcome.next (s.checked (rangeCheck i) action) : StepOutcome) = _ :=
    congrArg _ (checked_of_ne_none h action)
  cases i with
  | setcar n => exact fail _
  | rdsetd r => exact fail _
  | rdcntd r => exact fail _
  | rdresd r => exact fail _
  | setreg r v => exact fail _
  | turn n => exact fail _
  | _ => exact absurd rfl h

/-- A command whose operands are in its domain commits one update and answers OK. -/
theorem exec_of_in_domain {i : Instr} (h : rangeCheck i = none) (s : State) :
    ∃ (u : PartialUpdate) (d : Nat), exec i s = .next (s.answer (s.engine.merge u) (mkResponse .ok d)) := by
  have act (action : State → State) (u : PartialUpdate) (d : Nat)
      (ha : action s = s.answer (s.engine.merge u) (mkResponse .ok d)) :
      ∃ (u : PartialUpdate) (d : Nat),
        (Host.Outcome.next (s.checked (rangeCheck i) action) : StepOutcome) =
          .next (s.answer (s.engine.merge u) (mkResponse .ok d)) :=
    ⟨u, d, by rw [checked_of_none h, ha]⟩
  cases i with
  | setcar n => exact act _ _ _ rfl
  | rdsetd r => exact act _ {} _ rfl
  | rdcntd r => exact act _ {} _ rfl
  | rdresd r => exact act _ {} _ rfl
  | setreg r v => exact act _ _ _ rfl
  | turn n => exact act _ _ _ rfl
  | lift => exact ⟨_, _, rfl⟩
  | lower => exact ⟨_, _, rfl⟩
  | clrcnt => exact ⟨_, _, rfl⟩
  | clrres => exact ⟨_, _, rfl⟩
  | clr => exact ⟨_, _, rfl⟩
  | rdcar => exact ⟨{}, _, rfl⟩
  | rdset => exact ⟨{}, _, rfl⟩
  | rdcnt => exact ⟨{}, _, rfl⟩
  | rdres => exact ⟨{}, _, rfl⟩

/-- What a command can do: it always answers, and its five fields are one merge (R22). -/
theorem exec_answers (i : Instr) (s : State) :
    ∃ (u : PartialUpdate) (r : Response), exec i s = .next (s.answer (s.engine.merge u) r) := by
  by_cases h : rangeCheck i = none
  · obtain ⟨u, d, e⟩ := exec_of_in_domain h s
    exact ⟨u, _, e⟩
  · exact ⟨{}, _, exec_of_out_of_domain h s⟩

/-- A command's effect and answer depend on the five fields alone. -/
theorem exec_congr {s t : State} (h : s.engine = t.engine) (i : Instr) :
    ∃ (c : CalculatorState) (r : Response), exec i s = .next (s.answer c r) ∧ exec i t = .next (t.answer c r) := by
  by_cases hc : rangeCheck i = none
  · obtain ⟨e, inp, resp, rs⟩ := s
    obtain ⟨e', inp', resp', rs'⟩ := t
    obtain rfl : e = e' := h
    have act (action : State → State) (c : CalculatorState) (r : Response)
        (hs : action ⟨e, inp, resp, rs⟩ = State.answer ⟨e, inp, resp, rs⟩ c r)
        (ht : action ⟨e, inp', resp', rs'⟩ = State.answer ⟨e, inp', resp', rs'⟩ c r) :
        ∃ (c : CalculatorState) (r : Response),
          (Host.Outcome.next (State.checked ⟨e, inp, resp, rs⟩ (rangeCheck i) action) : StepOutcome) =
            .next (State.answer ⟨e, inp, resp, rs⟩ c r) ∧
          (Host.Outcome.next (State.checked ⟨e, inp', resp', rs'⟩ (rangeCheck i) action) : StepOutcome) =
            .next (State.answer ⟨e, inp', resp', rs'⟩ c r) :=
      ⟨c, r, by rw [checked_of_none hc, hs], by rw [checked_of_none hc, ht]⟩
    cases i with
    | setcar n => exact act _ _ _ rfl rfl
    | rdsetd r => exact act _ _ _ rfl rfl
    | rdcntd r => exact act _ _ _ rfl rfl
    | rdresd r => exact act _ _ _ rfl rfl
    | setreg r v => exact act _ _ _ rfl rfl
    | turn n => exact act _ _ _ rfl rfl
    | lift => exact ⟨_, _, rfl, rfl⟩
    | lower => exact ⟨_, _, rfl, rfl⟩
    | clrcnt => exact ⟨_, _, rfl, rfl⟩
    | clrres => exact ⟨_, _, rfl, rfl⟩
    | clr => exact ⟨_, _, rfl, rfl⟩
    | rdcar => exact ⟨_, _, rfl, rfl⟩
    | rdset => exact ⟨_, _, rfl, rfl⟩
    | rdcnt => exact ⟨_, _, rfl, rfl⟩
    | rdres => exact ⟨_, _, rfl, rfl⟩
  · exact ⟨_, _, exec_of_out_of_domain hc s, by rw [exec_of_out_of_domain hc t, h]⟩

/-- What a step can do. -/
theorem step_cases (s : State) :
    (s.takeInput.1 = .nothing ∧ step s = .next s.takeInput.2.idle) ∨
    (s.takeInput.1 = .reset ∧ step s = .next s.takeInput.2.resetEvent) ∨
    (∃ w i, s.takeInput.1 = .command w ∧ decode w = .legal i ∧ step s = exec i s.takeInput.2) ∨
    (∃ w why, s.takeInput.1 = .command w ∧ decode w = .illegal why ∧
      step s = .next (s.takeInput.2.answer s.takeInput.2.engine (mkResponse .illegalCommand 0))) ∨
    (s.takeInput.1 = .commandDuringReset ∧ step s = .fault .commandDuringReset) := by
  unfold step
  obtain ⟨p, s'⟩ := s.takeInput
  cases p with
  | nothing => exact .inl ⟨rfl, rfl⟩
  | reset => exact .inr (.inl ⟨rfl, rfl⟩)
  | commandDuringReset => exact .inr (.inr (.inr (.inr ⟨rfl, rfl⟩)))
  | command w =>
    cases h : decode w with
    | legal i => exact .inr (.inr (.inl ⟨w, i, rfl, h, by simp [h]⟩))
    | illegal why => exact .inr (.inr (.inr (.inl ⟨w, why, rfl, h, by simp only [h]; rfl⟩)))

/-- Taking an input changes nothing but the host's sequence. -/
theorem takeInput_engine (s : State) : s.takeInput.2.engine = s.engine := by
  cases h : s.inputs with
  | nil => rw [takeInput_nil h]
  | cons p rest => rw [takeInput_cons h]

theorem takeInput_responses (s : State) : s.takeInput.2.responses = s.responses := by
  cases h : s.inputs with
  | nil => rw [takeInput_nil h]
  | cons p rest => rw [takeInput_cons h]

end Sys2Proof.Machine
end

