-- ==== Sys2Proof/Laws/PerInstr.lean ====
section
/-! SUPPORT. The per-instruction family of LAWS.json: the opcode field and the two operand fields of each command's
word are those of the opcode table (`30_encoding.md` R50 to R53). -/

namespace Sys2Proof.Laws.EncodedFields

/-- The word's opcode is the command's, and its operand fields hold the command's operands, 0 where it has none. -/
def Statement (i : Instr) : Prop :=
  fieldOp (encode i) = i.mnemonic.opcode ∧
    fieldA (encode i) = BitVec.ofInt 8 i.argA ∧ fieldB (encode i) = BitVec.ofInt 16 i.argB

theorem of_packWord (i : Instr) : Statement i :=
  ⟨fieldOp_packWord .., fieldA_packWord .., fieldB_packWord ..⟩

theorem rdcar : Statement .rdcar := of_packWord _
theorem setcar (n : Int) : Statement (.setcar n) := of_packWord _
theorem lift : Statement .lift := of_packWord _
theorem lower : Statement .lower := of_packWord _
theorem rdset : Statement .rdset := of_packWord _
theorem rdsetd (r : Int) : Statement (.rdsetd r) := of_packWord _
theorem rdcnt : Statement .rdcnt := of_packWord _
theorem rdcntd (r : Int) : Statement (.rdcntd r) := of_packWord _
theorem rdres : Statement .rdres := of_packWord _
theorem rdresd (r : Int) : Statement (.rdresd r) := of_packWord _
theorem setreg (r v : Int) : Statement (.setreg r v) := of_packWord _
theorem clrcnt : Statement .clrcnt := of_packWord _
theorem clrres : Statement .clrres := of_packWord _
theorem clr : Statement .clr := of_packWord _
theorem turn (n : Int) : Statement (.turn n) := of_packWord _

end Sys2Proof.Laws.EncodedFields
end

