-- ==== Sys2Proof/Laws/Run.lean ====
section
/-! SUPPORT. The runs one command at a time, and what one presented word does. -/

namespace Sys2Proof.Machine

@[simp] theorem presentAll_engine (s : State) (ws : List CmdWord) : (s.presentAll ws).engine = s.engine := rfl
@[simp] theorem presentAll_inputs (s : State) (ws : List CmdWord) :
    (s.presentAll ws).inputs = ws.map PortsIn.ofCommand := rfl
@[simp] theorem presentAll_response (s : State) (ws : List CmdWord) : (s.presentAll ws).response = s.response := rfl
@[simp] theorem presentAll_responses (s : State) (ws : List CmdWord) : (s.presentAll ws).responses = s.responses := rfl

/-- Presenting a sequence is presenting its first word before the rest. -/
theorem presentAll_cons (s : State) (w : CmdWord) (ws : List CmdWord) :
    s.presentAll (w :: ws) = (s.presentAll ws).present w := rfl

/-- A presented word is always answered, whatever the state. -/
theorem step_present (s : State) (w : CmdWord) :
    ∃ (c : CalculatorState) (r : Response), step (s.present w) = .next (s.answer c r) := by
  rcases step_cases (s.present w) with ⟨h, -⟩ | ⟨h, -⟩ | ⟨-, i, -, -, h⟩ | ⟨-, -, -, -, h⟩ | ⟨h, -⟩
  · simp at h
  · simp at h
  · obtain ⟨u, r, e⟩ := exec_answers i s
    exact ⟨_, r, h.trans e⟩
  · exact ⟨_, _, h⟩
  · simp at h

/-- What a presented word does depends on the five fields alone. -/
theorem step_present_congr {s t : State} (h : s.engine = t.engine) (w : CmdWord) :
    ∃ (c : CalculatorState) (r : Response),
      step (s.present w) = .next (s.answer c r) ∧ step (t.present w) = .next (t.answer c r) := by
  cases hd : decode w with
  | legal i =>
    obtain ⟨c, r, hs, ht⟩ := exec_congr h i
    exact ⟨c, r, by simp [step, hd, hs], by simp [step, hd, ht]⟩
  | illegal why =>
    exact ⟨s.engine, mkResponse .illegalCommand 0, by simp only [step, takeInput_present, hd]; rfl,
      by simp only [step, takeInput_present, hd, h]; rfl⟩

theorem execAll_cons {i : Instr} {s t : State} (h : exec i s = .next t) (is : List Instr) :
    execAll (i :: is) s = execAll is t := by rw [execAll, h]

/-- A run of one step more, on any machine, -/
theorem run_of_step {M : Host.Core} {s t : M.State} (h : M.step s = .next t) (k : Nat) : M.run (k + 1) s = M.run k t := by
  rw [Host.Core.run, h]

/-- and on this one. -/
theorem run_succ {s t : State} (h : step s = .next t) (k : Nat) : core.run (k + 1) s = core.run k t :=
  run_of_step (M := core) h k

theorem runFeedback_of_none {host : FeedbackHost} {s : State} (h : host s.responses = none) (k : Nat) :
    runFeedback host k s = .next s := by
  cases k with
  | zero => rfl
  | succ k => rw [runFeedback, h]

theorem runFeedback_of_some {host : FeedbackHost} {s t : State} {w : CmdWord} (h : host s.responses = some w)
    (ht : step (s.present w) = .next t) (k : Nat) : runFeedback host (k + 1) s = runFeedback host k t := by
  rw [runFeedback, h]
  simp only [ht]

end Sys2Proof.Machine
end

