-- ==== Sys2Proof/Tests/Slice0.lean ====
section
/-! SUPPORT. Small tests: ill-formed commands, words written out from the spec's encodings, single steps taken from
`95_test_vectors.md`, and a witness for the hypotheses of every statement that has some. Expected values are the
spec's own. -/

namespace Sys2Proof.Tests

open Sys2Proof.Machine

/-- A machine with the given five fields and nothing presented or answered. -/
def machine (c : CalculatorState) : State := ⟨c, [], none, []⟩

/-- The five fields and the response after one step on a word. -/
def serve (w : CmdWord) (c : CalculatorState) : Option (CalculatorState × Option Response) :=
  match step ((machine c).present w) with
  | .next t => some (t.engine, t.response)
  | .fault _ => none
  | .refused _ => none

/-- The answer `(OK, d)`. -/
def ok (d : Nat) : Option Response := some (mkResponse .ok d)

/-- The answers of the two failures. -/
def rangeError : Option Response := some (mkResponse .rangeError 0)
def illegal : Option Response := some (mkResponse .illegalCommand 0)

/-! ### Well-formedness refuses what a word cannot carry -/

theorem test_illformed_a_high : (Instr.setcar 128).wellFormed = false := by decide
theorem test_illformed_a_low : (Instr.rdsetd (-129)).wellFormed = false := by decide
theorem test_illformed_rdcntd : (Instr.rdcntd 128).wellFormed = false := by decide
theorem test_illformed_rdresd : (Instr.rdresd 300).wellFormed = false := by decide
theorem test_illformed_setreg_r : (Instr.setreg 128 0).wellFormed = false := by decide
theorem test_illformed_setreg_v : (Instr.setreg 1 32768).wellFormed = false := by decide
theorem test_illformed_turn : (Instr.turn 32768).wellFormed = false := by decide
theorem test_illformed_turn_low : (Instr.turn (-32769)).wellFormed = false := by decide
theorem test_wellformed_out_of_domain : (Instr.setcar 7).wellFormed = true := by decide

/-! ### One word for each constructor, written from the pattern column of R52 -/

theorem test_decode_rdcar : decode 0b00000001_00000000_0000000000000000#32 = .legal .rdcar := by decide
theorem test_decode_setcar : decode 0b00000010_00000110_0000000000000000#32 = .legal (.setcar 6) := by decide
theorem test_decode_lift : decode 0b00000011_00000000_0000000000000000#32 = .legal .lift := by decide
theorem test_decode_lower : decode 0b00000100_00000000_0000000000000000#32 = .legal .lower := by decide
theorem test_decode_rdset : decode 0b00010000_00000000_0000000000000000#32 = .legal .rdset := by decide
theorem test_decode_rdsetd : decode 0b00010001_11111111_0000000000000000#32 = .legal (.rdsetd (-1)) := by decide
theorem test_decode_rdcnt : decode 0b00010010_00000000_0000000000000000#32 = .legal .rdcnt := by decide
theorem test_decode_rdcntd : decode 0b00010011_00000111_0000000000000000#32 = .legal (.rdcntd 7) := by decide
theorem test_decode_rdres : decode 0b00010100_00000000_0000000000000000#32 = .legal .rdres := by decide
theorem test_decode_rdresd : decode 0b00010101_10000000_0000000000000000#32 = .legal (.rdresd (-128)) := by decide
theorem test_decode_setreg : decode 0b00100000_00001000_0000000000001001#32 = .legal (.setreg 8 9) := by decide
theorem test_decode_clrcnt : decode 0b00110000_00000000_0000000000000000#32 = .legal .clrcnt := by decide
theorem test_decode_clrres : decode 0b00110001_00000000_0000000000000000#32 = .legal .clrres := by decide
theorem test_decode_clr : decode 0b00110010_00000000_0000000000000000#32 = .legal .clr := by decide
theorem test_decode_turn : decode 0b01000000_00000000_1000000000000000#32 = .legal (.turn (-32768)) := by decide

/-- The illegal words of `95_test_vectors.md` section 2.1. -/
theorem test_decode_illegal :
    [0x00000000#32, 0x01000001#32, 0x01010000#32, 0x02030001#32, 0x0203FFFF#32, 0x05000000#32, 0x10000001#32,
      0x11010001#32, 0x16000000#32, 0x21010005#32, 0x22010005#32, 0x30000100#32, 0x33000000#32, 0x40010001#32,
      0x40FF0001#32, 0x41000001#32, 0x80000000#32, 0xFFFFFFFF#32].all (fun w => (decode w).instr? == none) = true := by
  decide

/-- Encodings of `95_test_vectors.md` section 2.1. -/
theorem test_encode : encode (.setreg 8 9) = 0x20080009#32 ∧ encode (.rdsetd (-1)) = 0x11FF0000#32 ∧
    encode (.turn (-1)) = 0x4000FFFF#32 := by decide

theorem test_table_word : decodeTableWord 32 0x02030000 = some (.setcar 3) ∧ decodeTableWord 32 0x02030001 = none := by
  decide

theorem test_with_fetch_word :
    (match step (State.reset.withFetchWord 32 0x02030000) with
      | .next t => t.engine.carriageSetting == 3 && t.inputs == []
      | _ => false) = true := by decide

/-! ### Single steps, from `95_test_vectors.md` -/

theorem test_rdcar : serve 0x01000000#32 ⟨5, 4, 20, 6, true⟩ = some (⟨5, 4, 20, 6, true⟩, ok 6) := by decide
theorem test_setcar : serve 0x02030000#32 ⟨5, 4, 20, 1, true⟩ = some (⟨5, 4, 20, 3, true⟩, ok 0) := by decide
theorem test_setcar_7 : serve 0x02070000#32 ⟨5, 4, 20, 3, true⟩ = some (⟨5, 4, 20, 3, true⟩, rangeError) := by decide
theorem test_lift : serve 0x03000000#32 ⟨4, 4, 16, 1, true⟩ = some (⟨4, 4, 16, 1, false⟩, ok 0) := by decide
theorem test_lower : serve 0x04000000#32 ⟨4, 3, 12, 1, false⟩ = some (⟨4, 3, 12, 1, true⟩, ok 0) := by decide

theorem test_rdset : serve 0x10000000#32 ⟨12345678, 999990, 99999999950, 2, false⟩
    = some (⟨12345678, 999990, 99999999950, 2, false⟩, ok 12345678) := by decide
theorem test_rdsetd_4 : serve 0x11040000#32 ⟨12345678, 999990, 99999999950, 2, false⟩
    = some (⟨12345678, 999990, 99999999950, 2, false⟩, ok 5) := by decide
theorem test_rdsetd_9 : serve 0x11090000#32 ⟨12345678, 999990, 99999999950, 2, false⟩
    = some (⟨12345678, 999990, 99999999950, 2, false⟩, rangeError) := by decide
theorem test_rdcnt : serve 0x12000000#32 ⟨12345678, 999990, 99999999950, 2, false⟩
    = some (⟨12345678, 999990, 99999999950, 2, false⟩, ok 999990) := by decide
theorem test_rdcntd_6 : serve 0x13060000#32 ⟨12345678, 999990, 99999999950, 2, false⟩
    = some (⟨12345678, 999990, 99999999950, 2, false⟩, ok 9) := by decide
theorem test_rdcntd_7 : serve 0x13070000#32 ⟨12345678, 999990, 99999999950, 2, false⟩
    = some (⟨12345678, 999990, 99999999950, 2, false⟩, rangeError) := by decide
theorem test_rdres : serve 0x14000000#32 ⟨12345678, 999990, 99999999950, 2, false⟩
    = some (⟨12345678, 999990, 99999999950, 2, false⟩, ok 99999999950) := by decide
theorem test_rdresd_2 : serve 0x15020000#32 ⟨12345678, 999990, 99999999950, 2, false⟩
    = some (⟨12345678, 999990, 99999999950, 2, false⟩, ok 5) := by decide
theorem test_rdresd_11 : serve 0x150B0000#32 ⟨12345678, 999990, 99999999950, 2, false⟩
    = some (⟨12345678, 999990, 99999999950, 2, false⟩, ok 9) := by decide

theorem test_setreg_8_9 : serve 0x20080009#32 ⟨12345670, 0, 0, 1, true⟩
    = some (⟨92345670, 0, 0, 1, true⟩, ok 0) := by decide
theorem test_setreg_9_10 : serve 0x2009000A#32 ⟨92305670, 0, 0, 1, true⟩
    = some (⟨92305670, 0, 0, 1, true⟩, rangeError) := by decide

theorem test_clrcnt : serve 0x30000000#32 ⟨25, 304, 7520, 3, true⟩ = some (⟨25, 0, 7520, 3, true⟩, ok 0) := by decide
theorem test_clrres : serve 0x31000000#32 ⟨25, 304, 7520, 3, true⟩ = some (⟨25, 304, 0, 3, true⟩, ok 0) := by decide
theorem test_clr : serve 0x32000000#32 ⟨5, 999990, 99999999950, 2, false⟩ = some (⟨5, 0, 0, 2, false⟩, ok 0) := by decide

theorem test_turn_underflows_both : serve 0x40000001#32 ⟨5, 0, 0, 2, false⟩
    = some (⟨5, 999990, 99999999950, 2, false⟩, ok 0) := by decide
theorem test_turn_largest : serve 0x40007FFF#32 ⟨99999999, 0, 0, 6, true⟩
    = some (⟨99999999, 700000, 96723300000, 6, true⟩, ok 0) := by decide

theorem test_illegal_word : serve 0x40010003#32 ⟨2, 3, 6, 1, true⟩ = some (⟨2, 3, 6, 1, true⟩, illegal) := by decide

/-- C3 of `90_conflicts.md`: 7520, not 7500. -/
theorem test_turn_cumulative : serve 0x40000003#32 ⟨25, 4, 20, 3, true⟩
    = some (⟨25, 304, 7520, 3, true⟩, ok 0) := by decide

/-- The rows of S11. -/
theorem test_norm : norm .counting (-1000000) = 0 ∧ norm .counting (-3276700000) = 300000 ∧
    norm .result (-327669996723300000) = 3276700000 ∧ norm .result 327669996723300000 = 96723300000 := by decide

/-- The rows of S4. -/
theorem test_codec : toDigitArray 12345678 8 = [8, 7, 6, 5, 4, 3, 2, 1] ∧
    toDecimal [0, 5, 9, 9, 9, 9, 9, 9, 9, 9, 9] = 99999999950 := by decide

/-! ### Witnesses: states and operands that meet the hypotheses of the statements -/

/-- A state of R16 with every bank at its largest value and the crank up. -/
def high : CalculatorState := ⟨99999999, 999999, 99999999999, 6, false⟩

/-- A machine of `State.Inv` that has answered once. -/
def answered : State := ⟨high, [PortsIn.ofCommand 0x40000001#32], ok 0, [mkResponse .ok 99999999999, mkResponse .ok 0]⟩

theorem test_witness_state_inv : answered.Inv ∧ high.Inv ∧ (machine ⟨0, 0, 0, 1, true⟩).engine.Inv := by decide
theorem test_witness_step_keeps : ∃ t, step answered = .next t ∧ t.Inv :=
  ⟨_, rfl, by decide⟩
theorem test_witness_round_trip : (Instr.setreg (-128) 32767).wellFormed = true ∧ (Instr.turn (-32768)).wellFormed = true ∧
    (Instr.rdresd 127).wellFormed = true ∧ (Instr.clr).wellFormed = true := by decide
theorem test_witness_decoded_word : decode 0x20807FFF#32 = .legal (.setreg (-128) 32767) := by decide
theorem test_witness_unused_a : fieldOp 0x01010000#32 = Mnemonic.RDCAR.opcode ∧
    Mnemonic.RDCAR ∉ [Mnemonic.SETCAR, .RDSETD, .RDCNTD, .RDRESD, .SETREG] ∧ fieldA 0x01010000#32 ≠ 0 := by decide
theorem test_witness_unused_b : fieldOp 0x02030001#32 = Mnemonic.SETCAR.opcode ∧
    Mnemonic.SETCAR ∉ [Mnemonic.SETREG, .TURN] ∧ fieldB 0x02030001#32 ≠ 0 := by decide
theorem test_witness_operands : operandA 0x2080FFFF#32 = -128 ∧ operandB 0x207F7FFF#32 = 32767 ∧
    operandA 0x207F7FFF#32 = 127 ∧ operandB 0x20808000#32 = -32768 := by decide
theorem test_witness_assembled : assemble .SETREG [8, 9] = some (.setreg 8 9) ∧ assemble .TURN [] = some (.turn 1) ∧
    assemble .SETCAR [128] = none ∧ assemble .LIFT [1] = none := by decide
theorem test_witness_step_runs :
    ((machine high).present 0x32000000#32).inputs = PortsIn.ofCommand 0x32000000#32 :: [] ∧
      decode 0x32000000#32 = .legal .clr := by decide
theorem test_witness_no_row_matches : (∀ row ∈ opcodeTable, 0x00000000#32 &&& row.mask ≠ row.bits) ∧
    (∀ row ∈ opcodeTable, 0x01000001#32 &&& row.mask ≠ row.bits) := by decide
theorem test_witness_unassigned : [Mnemonic.RDCAR, .SETCAR, .LIFT, .LOWER, .RDSET, .RDSETD, .RDCNT, .RDCNTD, .RDRES,
    .RDRESD, .SETREG, .CLRCNT, .CLRRES, .CLR, .TURN].all (fun m => fieldOp 0x21010005#32 != m.opcode) = true := by decide
theorem test_witness_reset_input :
    ({ machine high with inputs := [⟨true, false, 0#32⟩] } : State).inputs = ⟨true, false, 0#32⟩ :: [] := by decide
theorem test_witness_idle_input : (machine high).inputs = [] ∧
    ({ machine high with inputs := [⟨false, false, 0#32⟩] } : State).inputs = ⟨false, false, 0#32⟩ :: [] := by decide
theorem test_witness_command_under_reset :
    ({ machine high with inputs := [⟨true, true, 0#32⟩] } : State).inputs = ⟨true, true, 0#32⟩ :: [] := by decide
theorem test_witness_only_stop : ¬∃ w rest, (machine high).inputs = ⟨true, true, w⟩ :: rest := by simp [machine]
theorem test_witness_responses : ∃ t, step answered = .next t ∧ t.responses.length = 3 := ⟨_, rfl, by decide⟩
theorem test_witness_failed : ∃ t, exec (.setcar 7) (machine high) = .next t ∧
    ∃ r, t.response = some r ∧ r.status ≠ .ok := ⟨_, rfl, _, rfl, by decide⟩
/-- Commands run after a failed one. -/
theorem test_witness_after_failed : ∃ t, exec (.setcar 7) (machine high) = .next t ∧
    (∃ u, execAll [.rdcar, .turn 1] t = .next u ∧ u.responses = [mkResponse .rangeError 0, mkResponse .ok 6,
      mkResponse .ok 0]) :=
  ⟨_, rfl, _, rfl, by decide⟩

/-- The host of R120's example: it turns, reads digit 11 of the result, and issues no more once that reads 9. -/
def untilUnderflow : FeedbackHost := fun rs =>
  if rs.getLast? = some (mkResponse .ok 9) then none
  else if rs.length % 2 = 0 then some 0x40000001#32 else some 0x150B0000#32

/-- Steps 10 and 11 of program P3 of `95_test_vectors.md`: the host stops by itself after two transactions. -/
theorem test_feedback_host : CalculatorState.Inv ⟨4, 999995, 0, 1, false⟩ ∧ (machine ⟨4, 999995, 0, 1, false⟩).inputs = [] ∧
    (match runFeedback untilUnderflow 3 (machine ⟨4, 999995, 0, 1, false⟩) with
      | .next t => t.responses == [mkResponse .ok 0, mkResponse .ok 9] && t.engine == ⟨4, 999994, 99999999996, 1, false⟩
      | _ => false) = true := by decide

/-- The same host against fewer transactions than it wants. -/
theorem test_feedback_host_cut :
    (match runFeedback untilUnderflow 1 (machine ⟨4, 999995, 0, 1, false⟩) with
      | .next t => t.responses == [mkResponse .ok 0]
      | _ => false) = true := by decide

theorem test_witness_writers : (∃ t, exec (.setreg 1 0) (machine high) = .next t ∧ t.engine.settingRegisters = 99999990) ∧
    (∃ t, exec .clr (machine high) = .next t ∧ t.engine.countingRegisters = 0 ∧ t.engine.resultRegisters = 0) ∧
    (∃ t, exec (.setcar 1) (machine high) = .next t ∧ t.engine.carriageSetting = 1) ∧
    (∃ t, exec .lower (machine high) = .next t ∧ t.engine.crankDown = true) :=
  ⟨⟨_, rfl, by decide⟩, ⟨_, rfl, by decide⟩, ⟨_, rfl, by decide⟩, ⟨_, rfl, by decide⟩⟩
theorem test_witness_crank_other_digits : ∃ t, exec (.setreg 1 0) (machine high) = .next t ∧ high.Inv ∧
    t.engine.settingRegisters ≠ high.settingRegisters ∧ ((8 : Nat) : Int) ≠ 1 := ⟨_, rfl, by decide⟩
theorem test_witness_reads : Instr.rdcar ∈ [Instr.rdcar, .rdset, .rdcnt, .rdres] ∧
    (∃ r, Instr.rdresd 11 = .rdsetd r ∨ Instr.rdresd 11 = .rdcntd r ∨ Instr.rdresd 11 = .rdresd r) :=
  ⟨by decide, 11, by decide⟩

/-- The corners of the range clauses: the last values inside and the first outside. -/
theorem test_witness_carriage_corners : carriageCheck 1 = none ∧ carriageCheck 6 = none ∧
    carriageCheck 0 = some .carriage ∧ carriageCheck 7 = some .carriage := by decide
theorem test_witness_register_corners :
    registerCheck .setting 1 = none ∧ registerCheck .setting 8 = none ∧ registerCheck .setting 0 ≠ none ∧
    registerCheck .setting 9 ≠ none ∧ registerCheck .counting 6 = none ∧ registerCheck .counting 7 ≠ none ∧
    registerCheck .result 11 = none ∧ registerCheck .result 12 ≠ none := by decide
theorem test_witness_setreg_corners : setregCheck 1 0 = none ∧ setregCheck 8 9 = none ∧
    setregCheck 0 10 = some .registerIndex ∧ setregCheck 9 (-1) = some .registerIndex ∧
    setregCheck 8 10 = some .digitValue ∧ setregCheck 1 (-1) = some .digitValue := by decide
theorem test_witness_turn_corners : turnCheck 1 = none ∧ turnCheck 0 = some .turnCount := by decide

/-- Both crank positions occur in states of R16. -/
theorem test_witness_crank_down : high.crankDown = false ∧ CalculatorState.initial.crankDown = true ∧
    CalculatorState.initial.Inv := by decide
theorem test_witness_setreg_pair : high.Inv ∧ (1 : Int) ≤ 8 ∧ (8 : Int) ≤ 8 ∧ (0 : Int) ≤ 9 ∧ (9 : Int) ≤ 9 ∧
    (1 : Int) ≠ 8 := by decide
theorem test_witness_any_setting : high.Inv ∧ 99999999 < 10 ^ 8 := by decide
theorem test_witness_turn_fits : high.Inv ∧ (1 : Int) ≤ 32767 ∧ |turnWeight 32767 high| = 3276700000 := by decide
theorem test_witness_independent : (⟨1, 5, 7, 3, true⟩ : CalculatorState).countingRegisters =
      (⟨2, 5, 9, 3, true⟩ : CalculatorState).countingRegisters ∧
    (⟨1, 5, 7, 3, true⟩ : CalculatorState).resultRegisters =
      (⟨1, 6, 7, 3, true⟩ : CalculatorState).resultRegisters := by decide
theorem test_witness_product :
    ([Instr.turn 5, .setcar 2, .rdcnt, .turn 4].all keepsProduct) = true ∧
    (⟨123, 0, 0, 1, true⟩ : CalculatorState).Inv ∧
    totalWeight [Instr.turn 5, .setcar 2, .rdcnt, .turn 4] 1 true = 45 ∧
    (123 : Int) * 45 < 100000000000 := by decide
theorem test_witness_norm_banks : Bank.counting ≠ .setting ∧ Bank.result ≠ .setting := by decide
theorem test_witness_codec : 99999999 < 10 ^ 8 ∧ (∀ d ∈ [9, 0, 9], d ≤ 9) ∧ 5 < 10 ^ 7 ∧ 7 < 8 := by decide
theorem test_witness_digit_address : 11 ≤ Bank.result.digits ∧ 8 ≤ Bank.setting.digits ∧ 6 ≤ Bank.counting.digits := by
  decide

end Sys2Proof.Tests
end

/-! # Proofs of the state family (`10_state.md`)

The digit codec as a bijection and the digit write (R17 to R19), the normalisation (R20), each command's one update
of the five fields and its data (R21, R22), and from these the four statements of the family. -/

namespace Sys2Proof.Machine

/-! ### The digit codec (R17, R19) -/

@[simp] theorem length_toDigitArray (n size : Nat) : (toDigitArray n size).length = size := by
  simp [toDigitArray]

theorem getElem?_toDigitArray {i size : Nat} (hi : i < size) (n : Nat) :
    (toDigitArray n size)[i]? = some (n / 10 ^ i % 10) := by
  simp [toDigitArray, hi]

/-- Every entry of a decoded array is a decimal digit. -/
theorem le_nine_of_mem_toDigitArray {n size d : Nat} (h : d ∈ toDigitArray n size) : d ≤ 9 := by
  obtain ⟨i, -, rfl⟩ := List.mem_map.mp h
  exact Nat.le_of_lt_succ (Nat.mod_lt _ (by decide))

/-- The codec's encode direction is Mathlib's, in base ten. -/
theorem toDecimal_eq_ofDigits (ds : List Nat) : toDecimal ds = Nat.ofDigits 10 ds := by
  induction ds with
  | nil => rfl
  | cons d ds ih => rw [toDecimal_cons, Nat.ofDigits_cons, ih]

theorem toDecimal_lt {ds : List Nat} (h : ∀ d ∈ ds, d ≤ 9) : toDecimal ds < 10 ^ ds.length := by
  rw [toDecimal_eq_ofDigits]
  exact Nat.ofDigits_lt_base_pow_length (by decide) fun d hd => Nat.lt_succ_of_le (h d hd)

/-- Decoding and encoding again keeps the low `size` digits. -/
theorem toDecimal_toDigitArray (n size : Nat) : toDecimal (toDigitArray n size) = n % 10 ^ size := by
  induction size generalizing n with
  | zero => simp [Nat.mod_one]
  | succ k ih => rw [toDigitArray_succ, toDecimal_cons, ih, pow_succ', Nat.mod_mul]

/-- Encoding an array of digits and decoding again gives the array back. -/
theorem toDigitArray_toDecimal {ds : List Nat} (h : ∀ d ∈ ds, d ≤ 9) :
    toDigitArray (toDecimal ds) ds.length = ds := by
  induction ds with
  | nil => rfl
  | cons d ds ih =>
    obtain ⟨hd, hds⟩ := List.forall_mem_cons.mp h
    have units : (d + 10 * toDecimal ds) % 10 = d := by omega
    have rest : (d + 10 * toDecimal ds) / 10 = toDecimal ds := by omega
    rw [List.length_cons, toDecimal_cons, toDigitArray_succ, units, rest, ih hds]

/-- Replacing one entry moves the sum by the difference of the two entries at that entry's weight. -/
theorem toDecimal_set {ds : List Nat} {i d : Nat} (h : ds[i]? = some d) (v : Nat) :
    toDecimal (ds.set i v) + d * 10 ^ i = toDecimal ds + v * 10 ^ i := by
  induction ds generalizing i with
  | nil => simp at h
  | cons e ds ih =>
    cases i with
    | zero =>
      obtain rfl : e = d := by simpa using h
      simp only [List.set_cons_zero, toDecimal_cons, pow_zero]
      omega
    | succ i =>
      have tail := ih (by simpa using h)
      simp only [List.set_cons_succ, toDecimal_cons, pow_succ]
      linarith

/-! ### The digit write (R18) -/

/-- The array a digit write encodes holds digits only. -/
theorem le_nine_of_mem_set_toDigitArray {n size i v d : Nat} (hv : v ≤ 9)
    (h : d ∈ (toDigitArray n size).set i v) : d ≤ 9 := by
  obtain hd | rfl := List.mem_or_eq_of_mem_set h
  · exact le_nine_of_mem_toDigitArray hd
  · exact hv

/-- In the digit view a digit write replaces one entry of the array. -/
theorem toDigitArray_digitWrite (n r : Nat) {v : Nat} (hv : v ≤ 9) :
    toDigitArray (digitWrite n r v) 8 = (toDigitArray n 8).set (r - 1) v := by
  have h := toDigitArray_toDecimal (ds := (toDigitArray n 8).set (r - 1) v)
    fun d => le_nine_of_mem_set_toDigitArray hv
  rwa [List.length_set, length_toDigitArray] at h

theorem digitWrite_lt (n r : Nat) {v : Nat} (hv : v ≤ 9) : digitWrite n r v < 10 ^ 8 := by
  have h := toDecimal_lt (ds := (toDigitArray n 8).set (r - 1) v)
    fun d => le_nine_of_mem_set_toDigitArray hv
  rwa [List.length_set, length_toDigitArray] at h

theorem digitWrite_digit_same (n : Nat) {r v : Nat} (hr : 1 ≤ r) (hr8 : r ≤ 8) (hv : v ≤ 9) :
    digitWrite n r v / 10 ^ (r - 1) % 10 = v := by
  have h := getElem?_toDigitArray (show r - 1 < 8 by omega) (digitWrite n r v)
  rw [toDigitArray_digitWrite n r hv, List.getElem?_set_self (by rw [length_toDigitArray]; omega)] at h
  exact (Option.some.inj h).symm

theorem digitWrite_digit_of_ne (n : Nat) {r v q : Nat} (hr : 1 ≤ r) (hv : v ≤ 9) (hq : 1 ≤ q) (hq8 : q ≤ 8)
    (hne : q ≠ r) : digitWrite n r v / 10 ^ (q - 1) % 10 = n / 10 ^ (q - 1) % 10 := by
  have hq' : q - 1 < 8 := by omega
  have h := getElem?_toDigitArray hq' (digitWrite n r v)
  rw [toDigitArray_digitWrite n r hv, List.getElem?_set_ne (by omega), getElem?_toDigitArray hq'] at h
  exact (Option.some.inj h).symm

/-- The closed form of R18. -/
theorem digitWrite_eq {n r : Nat} (hn : n < 10 ^ 8) (hr : 1 ≤ r) (hr8 : r ≤ 8) (v : Nat) :
    digitWrite n r v = n - n / 10 ^ (r - 1) % 10 * 10 ^ (r - 1) + v * 10 ^ (r - 1) := by
  have moved : digitWrite n r v + n / 10 ^ (r - 1) % 10 * 10 ^ (r - 1) = n + v * 10 ^ (r - 1) := by
    have h := toDecimal_set (getElem?_toDigitArray (show r - 1 < 8 by omega) n) v
    rwa [toDecimal_toDigitArray, Nat.mod_eq_of_lt hn] at h
  have held : n / 10 ^ (r - 1) % 10 * 10 ^ (r - 1) ≤ n :=
    (Nat.mul_le_mul_right _ (Nat.mod_le _ _)).trans (Nat.div_mul_le_self _ _)
  omega

/-- Settles O56: the digit write replaces one entry of the digit array, and array and bank determine each other. -/
theorem digitWriteReplacesOneDigit : Obligations.DigitWriteReplacesOneDigit := by
  intro n r v hn hr hr8 hv
  exact ⟨digitWrite_eq hn hr hr8 v, digitWrite_lt n r hv, digitWrite_digit_same n hr hr8 hv,
    fun q hq hq8 hne => digitWrite_digit_of_ne n hr hv hq hq8 hne⟩

/-! ### The normalisation (R20) -/

/-- The source's formula: adding the modulus to a truncating remainder makes it positive, and the outer remainder is
then the true modulo. -/
theorem tmod_add_tmod_eq_emod {m : Int} (hm : 0 < m) (v : Int) : (v.tmod m + m).tmod m = v % m := by
  have positive : 0 ≤ v.tmod m + m := by linarith [Int.lt_tmod_of_pos v hm]
  calc (v.tmod m + m).tmod m = (v.tmod m + m) % m := Int.tmod_eq_emod_of_nonneg positive
    _ = v.tmod m % m := Int.add_emod_right _ _
    _ = v % m := by rw [Int.tmod_def, Int.sub_mul_emod_self_left]

/-- Settles O53: `norm` is the true modulo, which the source's formula gives too. -/
theorem normIsTrueModulo : Obligations.NormIsTrueModulo := by
  refine ⟨fun b v _ => ⟨?_, ?_, coe_norm b v, ?_⟩, by decide⟩
  · exact_mod_cast norm_lt b v
  · rw [coe_norm]
    exact Int.dvd_self_sub_emod
  · rw [coe_norm, tmod_add_tmod_eq_emod (by exact_mod_cast modulus_pos b)]

/-! ### The reset values (R26) -/

@[simp] theorem bank_initial (b : Bank) : CalculatorState.initial.bank b = 0 := by cases b <;> rfl

@[simp] theorem digitRead_initial (b : Bank) (r : Nat) : CalculatorState.initial.digitRead b r = 0 := by
  simp [CalculatorState.digitRead]

/-- Settles O16: the five fields by their definition, the digits because a bank that is 0 has only the digit 0. -/
theorem resetValues : Obligations.ResetValues :=
  ⟨rfl, rfl, rfl, rfl, rfl, fun b r _ _ => digitRead_initial b r⟩

/-! ### What a command in its domain commits and answers (R21, R22) -/

/-- The update a command in its domain commits. -/
def updateOf (i : Instr) (c : CalculatorState) : PartialUpdate :=
  match i with
  | .setcar n => { carriage := some n.toNat }
  | .lift => { crank := some false }
  | .lower => { crank := some true }
  | .setreg r v => { setting := some (digitWrite c.settingRegisters r.toNat v.toNat) }
  | .clrcnt => { counting := some 0 }
  | .clrres => { result := some 0 }
  | .clr => { counting := some 0, result := some 0 }
  | .turn n =>
    { counting := some ((c.countingRegisters : Int) + turnWeight n c)
      result := some ((c.resultRegisters : Int) + turnValue n c) }
  | _ => {}

/-- The data a command in its domain answers. -/
def dataOf (i : Instr) (c : CalculatorState) : Nat :=
  match i with
  | .rdcar => c.carriageSetting
  | .rdset => c.bank .setting
  | .rdsetd r => c.digitRead .setting r.toNat
  | .rdcnt => c.bank .counting
  | .rdcntd r => c.digitRead .counting r.toNat
  | .rdres => c.bank .result
  | .rdresd r => c.digitRead .result r.toNat
  | _ => 0

/-- A command in its domain commits `updateOf` and answers OK with `dataOf`; `exec_of_out_of_domain` is the other
case. -/
theorem exec_eq_of_in_domain {i : Instr} (h : rangeCheck i = none) (s : State) :
    exec i s = .next (s.answer (s.engine.merge (updateOf i s.engine)) (mkResponse .ok (dataOf i s.engine))) := by
  have act (action : State → State)
      (ha : action s = s.answer (s.engine.merge (updateOf i s.engine)) (mkResponse .ok (dataOf i s.engine))) :
      (Host.Outcome.next (s.checked (rangeCheck i) action) : StepOutcome) =
        .next (s.answer (s.engine.merge (updateOf i s.engine)) (mkResponse .ok (dataOf i s.engine))) :=
    congrArg _ ((checked_of_none h action).trans ha)
  cases i with
  | setcar n => exact act _ rfl
  | rdsetd r => exact act _ rfl
  | rdcntd r => exact act _ rfl
  | rdresd r => exact act _ rfl
  | setreg r v => exact act _ rfl
  | turn n => exact act _ rfl
  | _ => rfl

/-! ### The crank and the setting bank (R25) -/

/-- No answered value is taken from the crank. -/
theorem dataOf_withCrank (i : Instr) (c : CalculatorState) (d : Bool) :
    dataOf i { c with crankDown := d } = dataOf i c := by
  cases i <;> rfl

/-- Only a turn commits values that depend on the crank. -/
theorem updateOf_withCrank {i : Instr} (h : ∀ n, i ≠ .turn n) (c : CalculatorState) (d : Bool) :
    updateOf i { c with crankDown := d } = updateOf i c := by
  cases i with
  | turn n => exact absurd rfl (h n)
  | _ => rfl

/-- Only `SETREG` commits a value of the setting bank. -/
theorem updateOf_setting_eq_none {i : Instr} (h : ∀ r v, i ≠ .setreg r v) (c : CalculatorState) :
    (updateOf i c).setting = none := by
  cases i with
  | setreg r v => exact absurd rfl (h r v)
  | _ => rfl

/-- Flipping the crank changes no response, and no other field unless the command is a turn. -/
theorem exec_withCrank (i : Instr) (s : State) (d : Bool) : ∃ t t',
    exec i s = .next t ∧ exec i { s with engine := { s.engine with crankDown := d } } = .next t' ∧
      t'.response = t.response ∧
      ((∀ n, i ≠ .turn n) →
        t'.engine.settingRegisters = t.engine.settingRegisters ∧
        t'.engine.countingRegisters = t.engine.countingRegisters ∧
        t'.engine.resultRegisters = t.engine.resultRegisters ∧
        t'.engine.carriageSetting = t.engine.carriageSetting) := by
  by_cases hc : rangeCheck i = none
  · refine ⟨_, _, exec_eq_of_in_domain hc s, exec_eq_of_in_domain hc _, ?_, fun hturn => ?_⟩
    · simp only [answer_response, dataOf_withCrank]
    · simp only [answer_engine, updateOf_withCrank hturn, merge_setting, merge_counting, merge_result,
        merge_carriage, and_self]
  · exact ⟨_, _, exec_of_out_of_domain hc s, exec_of_out_of_domain hc _, rfl, fun _ => ⟨rfl, rfl, rfl, rfl⟩⟩

/-- A command that changes the setting bank is a `SETREG` in its domain, and it writes one digit. -/
theorem exec_setting_ne {i : Instr} {s t : State} (h : exec i s = .next t)
    (hne : t.engine.settingRegisters ≠ s.engine.settingRegisters) :
    ∃ r v, i = .setreg r v ∧ setregCheck r v = none ∧
      t.engine.settingRegisters = digitWrite s.engine.settingRegisters r.toNat v.toNat := by
  by_cases hc : rangeCheck i = none
  · obtain rfl : _ = t := Host.Outcome.next.inj ((exec_eq_of_in_domain hc s).symm.trans h)
    by_cases hi : ∃ r v, i = .setreg r v
    · obtain ⟨r, v, rfl⟩ := hi
      exact ⟨r, v, rfl, hc, rfl⟩
    · have kept := updateOf_setting_eq_none (fun r v e => hi ⟨r, v, e⟩) s.engine
      exact absurd (by simp [kept]) hne
  · obtain rfl : _ = t := Host.Outcome.next.inj ((exec_of_out_of_domain hc s).symm.trans h)
    exact absurd rfl hne

/-- Settles O26: the crank enters no answered value and only a turn's update; the setting bank changes through the
digit write alone. -/
theorem crankIsNeverReported : Obligations.CrankIsNeverReported := by
  refine ⟨exec_withCrank, fun i s t h _ hne => ?_⟩
  obtain ⟨r, v, rfl, hc, written⟩ := exec_setting_ne h hne
  obtain ⟨⟨hr, -⟩, -, hv⟩ := setregCheck_eq_none.mp hc
  refine ⟨r, v, rfl, fun q hq hq8 hqr => ?_⟩
  calc t.engine.digitRead .setting q
      = digitWrite s.engine.settingRegisters r.toNat v.toNat / 10 ^ (q - 1) % 10 := by rw [← written]; rfl
    _ = s.engine.digitRead .setting q :=
        digitWrite_digit_of_ne _ (by omega) (by omega) hq hq8 (by omega)

end Sys2Proof.Machine

/-! # Proofs of the memory family (`20_memory.md`)

A read commits the empty update (R22), so it leaves the five fields; an answer depends on the five fields alone, so a
command that leaves them answers the same again (R36). -/

namespace Sys2Proof.Machine

/-- The empty update writes no field. -/
@[simp] theorem merge_empty (c : CalculatorState) : c.merge {} = c := rfl

/-- A read commits the empty update. -/
theorem updateOf_of_read {i : Instr}
    (h : i ∈ [Instr.rdcar, .rdset, .rdcnt, .rdres] ∨ ∃ r, i = .rdsetd r ∨ i = .rdcntd r ∨ i = .rdresd r)
    (c : CalculatorState) : updateOf i c = {} := by
  rcases h with whole | ⟨r, rfl | rfl | rfl⟩
  · simp only [List.mem_cons, List.not_mem_nil, or_false] at whole
    rcases whole with rfl | rfl | rfl | rfl <;> rfl
  all_goals rfl

/-- A command with the empty update leaves the five fields, whether it acts or fails. -/
theorem exec_of_no_update {i : Instr} {s : State} (h : updateOf i s.engine = {}) :
    ∃ r, exec i s = .next (s.answer s.engine r) := by
  by_cases hc : rangeCheck i = none
  · exact ⟨_, by rw [exec_eq_of_in_domain hc, h, merge_empty]⟩
  · exact ⟨_, exec_of_out_of_domain hc s⟩

/-- A command that leaves the five fields, repeated, leaves them again and gives the same response. -/
theorem exec_again {i : Instr} {s : State} {r : Response} (h : exec i s = .next (s.answer s.engine r)) :
    exec i (s.answer s.engine r) = .next ((s.answer s.engine r).answer s.engine r) := by
  obtain ⟨c, r', first, second⟩ := exec_congr (answer_engine s s.engine r).symm i
  have same : s.answer s.engine r = s.answer c r' := Host.Outcome.next.inj (h.symm.trans first)
  obtain rfl : s.engine = c := congrArg State.engine same
  obtain rfl : r = r' := Option.some.inj (congrArg State.response same)
  exact second

/-- Settles O27: a read commits the empty update, and its repetition starts from the same five fields. -/
theorem readsAreIdempotent : Obligations.ReadsAreIdempotent := by
  intro i s hread
  obtain ⟨r, first⟩ := exec_of_no_update (updateOf_of_read hread s.engine)
  exact ⟨_, _, first, exec_again first, rfl, rfl, rfl⟩

end Sys2Proof.Machine

/-! # Proofs of the encoding family (`30_encoding.md`)

Each row of the opcode table as a condition on the three fields (R52, R53), the decoder of a word with an assigned
opcode as its row's match (R61), and what a presented word's decoding makes of a step (R135, R118). -/

namespace Sys2Proof

/-! ### The rows of the opcode table, field by field (R52, R53) -/

/-- The mnemonics whose command uses the field `a` (column `A` of R52). -/
abbrev Mnemonic.usesA (m : Mnemonic) : Prop := m ∈ [Mnemonic.SETCAR, .RDSETD, .RDCNTD, .RDRESD, .SETREG]

/-- The mnemonics whose command uses the field `b` (column `B` of R52). -/
abbrev Mnemonic.usesB (m : Mnemonic) : Prop := m ∈ [Mnemonic.SETREG, .TURN]

@[simp] theorem fieldOp_row_mask (m : Mnemonic) : fieldOp m.row.mask = BitVec.allOnes 8 := by cases m <;> rfl

@[simp] theorem fieldA_row_mask (m : Mnemonic) : fieldA m.row.mask = if m.usesA then 0#8 else BitVec.allOnes 8 := by
  cases m <;> rfl

@[simp] theorem fieldB_row_mask (m : Mnemonic) :
    fieldB m.row.mask = if m.usesB then 0#16 else BitVec.allOnes 16 := by
  cases m <;> rfl

@[simp] theorem fieldOp_row_bits (m : Mnemonic) : fieldOp m.row.bits = m.opcode := by cases m <;> rfl
@[simp] theorem fieldA_row_bits (m : Mnemonic) : fieldA m.row.bits = 0#8 := by cases m <;> rfl
@[simp] theorem fieldB_row_bits (m : Mnemonic) : fieldB m.row.bits = 0#16 := by cases m <;> rfl

/-- A field under the mask of a field that is used, which is zero, or of one that is not, which is all ones. -/
theorem and_usedMask_eq_zero_iff {n : Nat} (used : Prop) [Decidable used] (v : BitVec n) :
    v &&& (if used then 0#n else BitVec.allOnes n) = 0#n ↔ used ∨ v = 0#n := by
  by_cases h : used <;> simp [h]

/-- A word matches a row exactly when it has the row's opcode and zero in each field the command does not use. -/
theorem matches_row_iff (m : Mnemonic) (w : CmdWord) :
    w &&& m.row.mask = m.row.bits ↔
      fieldOp w = m.opcode ∧ (m.usesA ∨ fieldA w = 0#8) ∧ (m.usesB ∨ fieldB w = 0#16) := by
  rw [and_mask_eq_iff, fieldOp_row_mask, fieldA_row_mask, fieldB_row_mask, fieldOp_row_bits, fieldA_row_bits,
    fieldB_row_bits, BitVec.and_allOnes, and_usedMask_eq_zero_iff, and_usedMask_eq_zero_iff]

/-! ### The decoder of an assigned opcode (R61) -/

/-- The command of a mnemonic with the operands `A` and `B`, of which it takes those it uses. -/
def Mnemonic.command (m : Mnemonic) (a b : Int) : Instr :=
  match m with
  | .RDCAR => .rdcar
  | .SETCAR => .setcar a
  | .LIFT => .lift
  | .LOWER => .lower
  | .RDSET => .rdset
  | .RDSETD => .rdsetd a
  | .RDCNT => .rdcnt
  | .RDCNTD => .rdcntd a
  | .RDRES => .rdres
  | .RDRESD => .rdresd a
  | .SETREG => .setreg a b
  | .CLRCNT => .clrcnt
  | .CLRRES => .clrres
  | .CLR => .clr
  | .TURN => .turn b

@[simp] theorem mnemonic_command (m : Mnemonic) (a b : Int) : (m.command a b).mnemonic = m := by cases m <;> rfl

/-- The decoder's test for a command without operands, field by field. -/
theorem low24_beq_zero (w : CmdWord) :
    (w.extractLsb' 0 24 == 0#24) = (fieldA w == 0#8 && fieldB w == 0#16) := by
  rw [Bool.eq_iff_iff]
  simpa using low24_eq_zero_iff w

/-- A word with an assigned opcode decodes to the opcode's command if it matches the opcode's row, and is illegal for
an unused field otherwise. -/
theorem decode_of_fieldOp {m : Mnemonic} {w : CmdWord} (h : fieldOp w = m.opcode) :
    decode w = legalIf (m.row.matchesWord w) (m.command (operandA w) (operandB w)) := by
  have row : m.row.matchesWord w = ((decide m.usesA || fieldA w == 0#8) && (decide m.usesB || fieldB w == 0#16)) := by
    rw [Bool.eq_iff_iff]
    simpa [OpRow.matchesWord, h] using matches_row_iff m w
  rw [row]
  cases m <;> simp [decode, h, Mnemonic.opcode, Mnemonic.command, low24_beq_zero, legalIf]

/-- A word of an assigned opcode and operand fields of which the unused ones are zero decodes to the command with the
fields' values: every value of a used field is accepted. -/
theorem decode_threeFields (m : Mnemonic) {a : BitVec 8} {b : BitVec 16} (ha : m.usesA ∨ a = 0#8)
    (hb : m.usesB ∨ b = 0#16) : decode (m.opcode ++ a ++ b : BitVec 32) = .legal (m.command (sext a) (sext b)) := by
  have matched := (matches_row_iff m (m.opcode ++ a ++ b)).mpr
    (by rw [fieldOp_threeFields, fieldA_threeFields, fieldB_threeFields]; exact ⟨rfl, ha, hb⟩)
  rw [decode_of_fieldOp (fieldOp_threeFields ..)]
  simp [OpRow.matchesWord, matched, legalIf, operandA, operandB]

/-- No two rows share an opcode, because the decoder tells their commands apart. -/
theorem opcode_injective {m m' : Mnemonic} (h : m.opcode = m'.opcode) : m = m' := by
  have decoded := decode_threeFields m (.inr rfl : _ ∨ 0#8 = 0#8) (.inr rfl : _ ∨ 0#16 = 0#16)
  rw [h, decode_threeFields m' (.inr rfl) (.inr rfl)] at decoded
  simpa using congrArg Instr.mnemonic (Decoded.legal.inj decoded).symm

/-! ### A non-zero unused field (R53) -/

section
variable {m : Mnemonic} {w : CmdWord} (hop : fieldOp w = m.opcode)
  (hunused : (¬m.usesA ∧ fieldA w ≠ 0) ∨ (¬m.usesB ∧ fieldB w ≠ 0))
include hop hunused

/-- Another row has another opcode, and the opcode's own row asks for zero. -/
theorem not_matches_row_of_unused_ne_zero (m' : Mnemonic) : w &&& m'.row.mask ≠ m'.row.bits := by
  intro matched
  obtain ⟨hop', ha, hb⟩ := (matches_row_iff m' w).mp matched
  obtain rfl : m = m' := opcode_injective (hop.symm.trans hop')
  rcases hunused with ⟨unused, nonzero⟩ | ⟨unused, nonzero⟩
  · exact ha.elim unused nonzero
  · exact hb.elim unused nonzero

theorem decode_of_unused_ne_zero : decode w = .illegal .unusedFieldNonzero := by
  rw [decode_of_fieldOp hop]
  simp [OpRow.matchesWord, legalIf, not_matches_row_of_unused_ne_zero hop hunused m]

end

/-- Settles O4: a row matches only words of its own opcode with zero in its unused fields, and a word that does not
match its opcode's row is illegal. -/
theorem unusedFieldsMustBeZero : Obligations.UnusedFieldsMustBeZero := by
  refine ⟨fun m w hop hunused => ⟨fun row hrow => ?_, decode_of_unused_ne_zero hop hunused⟩,
    fun m => ⟨fieldA_row_mask m, fieldB_row_mask m⟩, ?_⟩
  · obtain ⟨m', -, rfl⟩ := List.mem_map.mp hrow
    exact not_matches_row_of_unused_ne_zero hop hunused m'
  · rw [decode_of_unused_ne_zero (m := .RDCAR) rfl (by decide)]
    exact Decoded.noConfusion

end Sys2Proof

namespace Sys2Proof.Machine

/-! ### Decoding and the range checks in a step (R62) -/

/-- A presented word that decodes runs its command. -/
theorem step_present_of_legal {w : CmdWord} {i : Instr} (h : decode w = .legal i) (s : State) :
    step (s.present w) = exec i s := by
  simp only [step, takeInput_present, h]

/-- A presented word that does not decode changes nothing and is answered as illegal. -/
theorem step_present_of_illegal {w : CmdWord} {why : IllegalWord} (h : decode w = .illegal why) (s : State) :
    step (s.present w) = .next (s.answer s.engine (mkResponse .illegalCommand 0)) := by
  simp only [step, takeInput_present, h]
  rfl

/-- Settles O6: the decoder tests the unused fields alone, so `SETCAR 7` decodes and fails at its range check, where
a non-zero unused field fails to decode. -/
theorem rangeChecksAreNotDecoding : Obligations.RangeChecksAreNotDecoding := by
  refine ⟨fun a b => ⟨?_, ?_, ?_, ?_, ?_, ?_⟩, fun s => ?_⟩
  · exact decode_threeFields .SETCAR (.inl (by decide)) (.inr rfl)
  · exact decode_threeFields .RDSETD (.inl (by decide)) (.inr rfl)
  · exact decode_threeFields .RDCNTD (.inl (by decide)) (.inr rfl)
  · exact decode_threeFields .RDRESD (.inl (by decide)) (.inr rfl)
  · exact decode_threeFields .SETREG (.inl (by decide)) (.inl (by decide))
  · exact decode_threeFields .TURN (.inr rfl) (.inl (by decide))
  · have decodes : decode 0x02070000#32 = .legal (.setcar 7) :=
      decode_threeFields .SETCAR (a := 7) (.inl (by decide)) (.inr rfl)
    have outOfRange : rangeCheck (.setcar 7) ≠ none := by decide
    have unused : decode 0x02070001#32 = .illegal .unusedFieldNonzero :=
      decode_of_unused_ne_zero (m := .SETCAR) rfl (by decide)
    exact ⟨decodes, (step_present_of_legal decodes s).trans (exec_of_out_of_domain outOfRange s),
      step_present_of_illegal unused s⟩

end Sys2Proof.Machine

/-! # Proofs of the carriage and crank family (`40_carriage_crank.md`)

The word of a command from its row of the opcode table (R50, R52), the data of an OK answer (R55), and the four
commands as instances of a command in or out of its domain (R70 to R73). -/

namespace Sys2Proof

/-! ### The word of a command without an operand `B` (R50, R52) -/

/-- A row's match is its opcode above two zero operand fields. -/
theorem row_bits_eq (m : Mnemonic) : m.row.bits = m.opcode.setWidth 32 <<< 24 := by cases m <;> rfl

/-- A command without an operand `B` is its row's match with its operand `A` in the field `a`. -/
theorem encode_of_argB_eq_zero {i : Instr} (hb : i.argB = 0) :
    encode i = i.mnemonic.row.bits ||| ((BitVec.ofInt 32 i.argA &&& 0xFF#32) <<< 16) := by
  have zeroB : BitVec.ofInt 32 i.argB &&& 0xFFFF#32 = 0#32 := by rw [hb]; rfl
  rw [encode, packWord_eq_or, zeroB, BitVec.or_zero, row_bits_eq]

/-- A command without operands is its row's match. -/
theorem encode_of_no_operands {i : Instr} (ha : i.argA = 0) (hb : i.argB = 0) : encode i = i.mnemonic.row.bits := by
  have zeroA : (BitVec.ofInt 32 i.argA &&& 0xFF#32) <<< 16 = 0#32 := by rw [ha]; rfl
  rw [encode_of_argB_eq_zero hb, zeroA, BitVec.or_zero]

end Sys2Proof

namespace Sys2Proof.Machine

/-- A value below the largest modulus fits the data of a response (R55). -/
theorem toNat_mkResponse_data (st : Status) {d : Nat} (h : d < 10 ^ 11) : (mkResponse st d).data.toNat = d := by
  rw [mkResponse_data, BitVec.toNat_ofNat]
  exact Nat.mod_eq_of_lt (h.trans (by decide))

/-! ### The four commands (R70 to R73) -/

/-- Settles O28: `RDCAR` commits the empty update, and a carriage position of R16 fits the data. -/
theorem rdcarReadsCarriage : Obligations.RdcarReadsCarriage := by
  refine ⟨encode_of_no_operands rfl rfl, fun s hinv => ?_⟩
  obtain ⟨-, -, -, lo, hi⟩ := hinv
  have data := toNat_mkResponse_data .ok (d := s.engine.carriageSetting) (by omega)
  exact ⟨mkResponse .ok s.engine.carriageSetting, rfl, data, lo.trans_eq data.symm, data.trans_le hi,
    exec_eq_of_in_domain rfl s⟩

/-- Settles O29: the range check passes exactly from 1 to 6. -/
theorem setcarSetsCarriageOrFails : Obligations.SetcarSetsCarriageOrFails := by
  refine ⟨fun n => encode_of_argB_eq_zero rfl, fun n s => ⟨fun inRange => ?_, fun outOfRange => ?_⟩⟩
  · have passes : rangeCheck (.setcar n) = none := carriageCheck_eq_none.mpr inRange
    exact exec_eq_of_in_domain passes s
  · have fails : rangeCheck (.setcar n) ≠ none := fun passes => by
      have inRange := carriageCheck_eq_none.mp passes
      omega
    exact exec_of_out_of_domain fails s

/-- Settles O30: `LIFT` has no range check, and its update holds the crank alone. -/
theorem liftSelectsSubtraction : Obligations.LiftSelectsSubtraction :=
  ⟨encode_of_no_operands rfl rfl, exec_eq_of_in_domain rfl⟩

/-- Settles O31: `LOWER` has no range check, and its update holds the crank alone. -/
theorem lowerSelectsAddition : Obligations.LowerSelectsAddition :=
  ⟨encode_of_no_operands rfl rfl, exec_eq_of_in_domain rfl⟩

end Sys2Proof.Machine

/-! # Proofs of the bank read family (`41_bank_read.md`)

A read commits the empty update and answers its datum, once for every read; the whole-bank reads and the digit reads of
R80 are its instances for a bank's value under R16 and for an addressed digit (R81 to R86). -/

namespace Sys2Proof.Machine

/-! ### The generic read (R80) -/

/-- Under R16 every bank is below its modulus. -/
theorem bank_lt_modulus {c : CalculatorState} (h : c.Inv) (b : Bank) : c.bank b < b.modulus := by
  obtain ⟨setting, counting, result, -⟩ := h
  cases b with
  | setting => exact setting
  | counting => exact counting
  | result => exact result

/-- No bank has more digits than the result bank. -/
theorem modulus_le_result (b : Bank) : b.modulus ≤ 10 ^ 11 := by cases b <;> decide

/-- A command in its domain that commits nothing answers OK with its datum, if that fits the data of a response. -/
theorem exec_of_read {i : Instr} {s : State} {m : Nat} (check : rangeCheck i = none) (update : updateOf i s.engine = {})
    (bound : dataOf i s.engine ≤ m) (fits : m < 10 ^ 11) :
    ∃ r : Response, r.status = .ok ∧ r.data.toNat = dataOf i s.engine ∧ r.data.toNat ≤ m ∧
      exec i s = .next (s.answer s.engine r) := by
  have data := toNat_mkResponse_data .ok (bound.trans_lt fits)
  exact ⟨_, rfl, data, data.trans_le bound, by rw [exec_eq_of_in_domain check, update, merge_empty]⟩

/-- `ReadWhole(bank)`: under R16 the answer is the bank, below its modulus. -/
theorem exec_of_wholeRead {i : Instr} {s : State} {b : Bank} (hinv : s.engine.Inv) (check : rangeCheck i = none)
    (update : updateOf i s.engine = {}) (datum : dataOf i s.engine = s.engine.bank b) :
    ∃ r : Response, r.status = .ok ∧ r.data.toNat = s.engine.bank b ∧ r.data.toNat ≤ b.modulus - 1 ∧
      exec i s = .next (s.answer s.engine r) := by
  have bound : dataOf i s.engine ≤ b.modulus - 1 := datum.trans_le (Nat.le_sub_one_of_lt (bank_lt_modulus hinv b))
  have fits : b.modulus - 1 < 10 ^ 11 := (Nat.sub_one_lt (modulus_pos b).ne').trans_le (modulus_le_result b)
  exact datum ▸ exec_of_read check update bound fits

/-- `ReadDigit(bank, r)`: the addressed digit for an `r` from 1 to `digits(bank)`, RangeError for any other. -/
theorem exec_of_digitRead {i : Instr} {s : State} {b : Bank} {r : Int} (check : rangeCheck i = registerCheck b r)
    (update : updateOf i s.engine = {}) (datum : dataOf i s.engine = s.engine.digitRead b r.toNat) :
    (1 ≤ r ∧ r ≤ (b.digits : Int) →
      ∃ a : Response, a.status = .ok ∧ a.data.toNat = s.engine.digitRead b r.toNat ∧ a.data.toNat ≤ 9 ∧
        exec i s = .next (s.answer s.engine a)) ∧
    (r < 1 ∨ r > (b.digits : Int) → exec i s = .next (s.answer s.engine ⟨.rangeError, 0⟩)) := by
  refine ⟨fun inRange => ?_, fun outOfRange => ?_⟩
  · have passes : rangeCheck i = none := check.trans (registerCheck_eq_none.mpr inRange)
    have bound : dataOf i s.engine ≤ 9 := datum.trans_le (Nat.le_of_lt_succ (digitRead_lt ..))
    exact datum ▸ exec_of_read passes update bound (by decide)
  · have fails : rangeCheck i ≠ none := by simp [check, registerCheck_of_out outOfRange]
    exact exec_of_out_of_domain fails s

/-! ### The six commands (R81 to R86) -/

/-- Settles O32: `RDSET` is the whole read of the setting bank. -/
theorem rdsetReadsSettingBank : Obligations.RdsetReadsSettingBank :=
  ⟨encode_of_no_operands rfl rfl, fun _ hinv => exec_of_wholeRead (b := .setting) hinv rfl rfl rfl⟩

/-- Settles O33: `RDSETD` is the digit read of the setting bank. -/
theorem rdsetdReadsSettingDigit : Obligations.RdsetdReadsSettingDigit :=
  ⟨fun _ => encode_of_argB_eq_zero rfl, fun _ _ => exec_of_digitRead (b := .setting) rfl rfl rfl⟩

/-- Settles O34: `RDCNT` is the whole read of the counting bank. -/
theorem rdcntReadsCountingBank : Obligations.RdcntReadsCountingBank :=
  ⟨encode_of_no_operands rfl rfl, fun _ hinv => exec_of_wholeRead (b := .counting) hinv rfl rfl rfl⟩

/-- Settles O35: `RDCNTD` is the digit read of the counting bank. -/
theorem rdcntdReadsCountingDigit : Obligations.RdcntdReadsCountingDigit :=
  ⟨fun _ => encode_of_argB_eq_zero rfl, fun _ _ => exec_of_digitRead (b := .counting) rfl rfl rfl⟩

/-- Settles O36: `RDRES` is the whole read of the result bank. -/
theorem rdresReadsResultBank : Obligations.RdresReadsResultBank :=
  ⟨encode_of_no_operands rfl rfl, fun _ hinv => exec_of_wholeRead (b := .result) hinv rfl rfl rfl⟩

/-- Settles O37: `RDRESD` is the digit read of the result bank. -/
theorem rdresdReadsResultDigit : Obligations.RdresdReadsResultDigit :=
  ⟨fun _ => encode_of_argB_eq_zero rfl, fun _ _ => exec_of_digitRead (b := .result) rfl rfl rfl⟩

end Sys2Proof.Machine

/-! # Proofs of the bank write family (`42_bank_write.md`)

The word of `SETREG`, and the command as an instance of a command in or out of its domain, its write being the closed
form of the digit write (R18, R90). -/

namespace Sys2Proof.Machine

/-- The word of `SETREG`: its opcode above both operand fields (R50, R52). -/
theorem encode_setreg (r v : Int) :
    encode (.setreg r v) =
      0x20000000#32 ||| ((BitVec.ofInt 32 r &&& 0xFF#32) <<< 16) ||| (BitVec.ofInt 32 v &&& 0xFFFF#32) :=
  packWord_eq_or 0x20#8 r v

/-- In its domain `SETREG` stores the digit write in the setting bank and changes no other field (R90). -/
theorem exec_setreg_of_in_domain {r v : Int} (h : setregCheck r v = none) (s : State) :
    exec (.setreg r v) s = .next (s.answer
      { s.engine with settingRegisters := digitWrite s.engine.settingRegisters r.toNat v.toNat } ⟨.ok, 0⟩) :=
  exec_eq_of_in_domain (i := .setreg r v) h s

/-- Settles O39: under R16 the digit write has its closed form, and the range check passes exactly for `r` from 1 to 8
with `v` from 0 to 9. -/
theorem setregReplacesOneDigitOrFails : Obligations.SetregReplacesOneDigitOrFails := by
  refine ⟨encode_setreg, fun r v s hinv => ⟨fun ⟨hr, hr8, hv, hv9⟩ => ?_, fun outOfRange => ?_⟩⟩
  · obtain ⟨setting, -⟩ := hinv
    have passes : setregCheck r v = none := setregCheck_eq_none.mpr ⟨⟨hr, hr8⟩, hv, hv9⟩
    have closed := digitWrite_eq setting (r := r.toNat) (by omega) (by omega) v.toNat
    rw [exec_setreg_of_in_domain passes, closed]
  · have fails : rangeCheck (.setreg r v) ≠ none := fun passes => by
      have inRange := setregCheck_eq_none.mp passes
      omega
    exact exec_of_out_of_domain fails s

end Sys2Proof.Machine

/-! # Proofs of the clearing family (`43_clearing.md`)

Each clearing command has no range check and commits 0 to its banks, which the normalisation keeps (R95 to R97); the
two single clears in sequence, in either order, reach the end state of `CLR`. -/

namespace Sys2Proof.Machine

/-- `CLRCNT` in every state (R95). -/
theorem exec_clrcnt (s : State) :
    exec .clrcnt s = .next (s.answer { s.engine with countingRegisters := 0 } ⟨.ok, 0⟩) :=
  exec_eq_of_in_domain (i := .clrcnt) rfl s

/-- `CLRRES` in every state (R96). -/
theorem exec_clrres (s : State) :
    exec .clrres s = .next (s.answer { s.engine with resultRegisters := 0 } ⟨.ok, 0⟩) :=
  exec_eq_of_in_domain (i := .clrres) rfl s

/-- `CLR` in every state (R97). -/
theorem exec_clr (s : State) :
    exec .clr s = .next (s.answer { s.engine with countingRegisters := 0, resultRegisters := 0 } ⟨.ok, 0⟩) :=
  exec_eq_of_in_domain (i := .clr) rfl s

/-- Two commands in sequence. -/
theorem execAll_pair {i j : Instr} {s t u : State} (first : exec i s = .next t) (second : exec j t = .next u) :
    execAll [i, j] s = .next u := by
  rw [execAll_cons first, execAll_cons second, execAll]

/-- Settles O43: the update of `CLRCNT` holds the counting bank alone. -/
theorem clrcntClearsCounting : Obligations.ClrcntClearsCounting :=
  ⟨encode_of_no_operands rfl rfl, exec_clrcnt⟩

/-- Settles O44: the update of `CLRRES` holds the result bank alone. -/
theorem clrresClearsResult : Obligations.ClrresClearsResult :=
  ⟨encode_of_no_operands rfl rfl, exec_clrres⟩

/-- Settles O45: the update of `CLR` holds both banks, and the two single clears write different banks. -/
theorem clrClearsBothAtOnce : Obligations.ClrClearsBothAtOnce :=
  ⟨encode_of_no_operands rfl rfl, fun s => ⟨exec_clr s, _, _,
    execAll_pair (exec_clrcnt s) (exec_clrres _), execAll_pair (exec_clrres s) (exec_clrcnt _), rfl, rfl⟩⟩

end Sys2Proof.Machine

/-! # Proofs of the turn family (`44_turn.md`)

A turn as one weight added to both banks (R100): two weights in sequence are their sum (R104), and each bank's new
value reads its own inputs (R103). The bounds of the weight and of the value give the widths of the datapath (R101). -/

namespace Sys2Proof.Machine

/-! ### One weight added to both banks (R100) -/

/-- Both banks after a turn of the weight `w`: `C + w` and `P + S * w`, normalised. -/
def CalculatorState.addWeight (c : CalculatorState) (w : Int) : CalculatorState :=
  { c with
    countingRegisters := norm .counting ((c.countingRegisters : Int) + w)
    resultRegisters := norm .result ((c.resultRegisters : Int) + (c.settingRegisters : Int) * w) }

/-- The word of `TURN`: its opcode above the field `b` (R50, R52). -/
theorem encode_turn (n : Int) : encode (.turn n) = 0x40000000#32 ||| (BitVec.ofInt 32 n &&& 0xFFFF#32) :=
  packWord_eq_or 0x40#8 0 n

/-- A turn in its domain adds its weight and answers OK. -/
theorem exec_turn_of_one_le {n : Int} (h : 1 ≤ n) (s : State) :
    exec (.turn n) s = .next (s.answer (s.engine.addWeight (turnWeight n s.engine)) ⟨.ok, 0⟩) :=
  exec_eq_of_in_domain (i := .turn n) (turnCheck_eq_none.mpr h) s

/-- A turn below its domain changes nothing and answers RangeError. -/
theorem exec_turn_of_lt_one {n : Int} (h : n < 1) (s : State) :
    exec (.turn n) s = .next (s.answer s.engine ⟨.rangeError, 0⟩) :=
  exec_of_out_of_domain (i := .turn n) (fun passes => h.not_ge (turnCheck_eq_none.mp passes)) s

/-- Settles O46: the range check passes exactly from 1 on, and `addWeight` is then the rule's two sums. -/
theorem turnAddsWeightedSettingOrFails : Obligations.TurnAddsWeightedSettingOrFails :=
  ⟨encode_turn, fun _ s _ => ⟨fun h => exec_turn_of_one_le h s, fun h => exec_turn_of_lt_one h s⟩⟩

/-! ### What a turn's values depend on (R103) -/

/-- The weight reads the carriage and the crank alone. -/
theorem turnWeight_congr {c c' : CalculatorState} (carriage : c.carriageSetting = c'.carriageSetting)
    (crank : c.crankDown = c'.crankDown) (n : Int) : turnWeight n c = turnWeight n c' := by
  rw [turnWeight, turnWeight, carriage, crank]

/-- Settles O49: each bank's sum holds its own old value, the setting for the result bank only, and the weight. -/
theorem turnBanksAreIndependent : Obligations.TurnBanksAreIndependent := by
  intro n s s' hn
  refine ⟨_, _, exec_turn_of_one_le hn s, exec_turn_of_one_le hn s', rfl, fun counting carriage crank => ?_,
    fun result setting carriage crank => ?_⟩
  · simp only [answer_engine, CalculatorState.addWeight, counting, turnWeight_congr carriage crank]
  · simp only [answer_engine, CalculatorState.addWeight, result, setting, turnWeight_congr carriage crank]

/-! ### Turns in sequence (R104) -/

/-- A normalisation inside a sum that is normalised does not matter. -/
theorem norm_norm_add (b : Bank) (x y : Int) : norm b ((norm b x : Int) + y) = norm b (x + y) := by
  rw [norm, coe_norm, Int.emod_add_emod, norm]

theorem addWeight_addWeight (c : CalculatorState) (v w : Int) :
    (c.addWeight v).addWeight w = c.addWeight (v + w) := by
  simp only [CalculatorState.addWeight, norm_norm_add, mul_add, add_assoc]

theorem turnWeight_add (m n : Int) (c : CalculatorState) :
    turnWeight (m + n) c = turnWeight m c + turnWeight n c := by
  simp only [turnWeight, add_mul]

/-- A turn leaves the carriage and the crank, so the weight of the next one is as it was. -/
@[simp] theorem turnWeight_addWeight (n : Int) (c : CalculatorState) (w : Int) :
    turnWeight n (c.addWeight w) = turnWeight n c := rfl

/-- A turn after a turn adds the weight of the sum of the two counts. -/
theorem addWeight_turnWeight_add (m n : Int) (c : CalculatorState) :
    (c.addWeight (turnWeight m c)).addWeight (turnWeight n (c.addWeight (turnWeight m c))) =
      c.addWeight (turnWeight (m + n) c) := by
  rw [turnWeight_addWeight, addWeight_addWeight, turnWeight_add]

/-- Single turns, at least one, add the weight of their number. -/
theorem execAll_replicate_turn_one (k : Nat) (s : State) :
    ∃ t, execAll (List.replicate (k + 1) (.turn 1)) s = .next t ∧
      t.engine = s.engine.addWeight (turnWeight ((k + 1 : Nat) : Int) s.engine) := by
  induction k generalizing s with
  | zero => exact ⟨_, execAll_cons (exec_turn_of_one_le le_rfl s) [], rfl⟩
  | succ k ih =>
    obtain ⟨t, rest, engine⟩ := ih (s.answer (s.engine.addWeight (turnWeight 1 s.engine)) ⟨.ok, 0⟩)
    refine ⟨t, (execAll_cons (exec_turn_of_one_le le_rfl s) _).trans rest, ?_⟩
    rw [engine, answer_engine, addWeight_turnWeight_add]
    congr 2
    push_cast
    ring

/-- Settles O50: weights add up, and the single turns by induction on their number. -/
theorem turnsAddUp : Obligations.TurnsAddUp := by
  refine ⟨fun m n s hm hn => ?_, fun k s hk => ?_⟩
  · exact ⟨_, _, execAll_pair (exec_turn_of_one_le hm s) (exec_turn_of_one_le hn _),
      exec_turn_of_one_le (by omega) s, addWeight_turnWeight_add m n s.engine⟩
  · obtain ⟨k, rfl⟩ := Nat.exists_eq_add_of_le' hk
    obtain ⟨t, run, engine⟩ := execAll_replicate_turn_one k s
    exact ⟨t, _, run, exec_turn_of_one_le (by omega) s, engine⟩

/-! ### The bounds of the intermediates (R101) -/

theorem multiplier_eq_one_or (d : Bool) : multiplier d = 1 ∨ multiplier d = -1 := by cases d <;> decide

/-- The multiplier is only a sign. -/
theorem abs_turnWeight {n : Int} (h : 0 ≤ n) (c : CalculatorState) :
    |turnWeight n c| = n * ((10 ^ (c.carriageSetting - 1) : Nat) : Int) := by
  have size : |n * ((10 ^ (c.carriageSetting - 1) : Nat) : Int)| = n * ((10 ^ (c.carriageSetting - 1) : Nat) : Int) :=
    abs_of_nonneg (mul_nonneg h (Int.natCast_nonneg _))
  rcases multiplier_eq_one_or c.crankDown with down | up
  · rw [turnWeight, down, mul_one, size]
  · rw [turnWeight, up, mul_neg_one, abs_neg, size]

theorem abs_turnValue (n : Int) (c : CalculatorState) :
    |turnValue n c| = (c.settingRegisters : Int) * |turnWeight n c| := by
  rw [turnValue, abs_mul, Nat.abs_cast]

theorem one_le_abs_turnWeight {n : Int} (h : 1 ≤ n) (c : CalculatorState) : 1 ≤ |turnWeight n c| := by
  rw [abs_turnWeight (by omega)]
  exact one_le_mul_of_one_le_of_one_le h (by exact_mod_cast Nat.one_le_pow' _ _)

section
variable {n : Int} {c : CalculatorState} (hinv : c.Inv) (lo : 1 ≤ n) (hi : n ≤ 32767)
include hinv lo hi

theorem abs_turnWeight_le : |turnWeight n c| ≤ 3276700000 := by
  obtain ⟨-, -, -, -, carriage⟩ := hinv
  have weight : ((10 ^ (c.carriageSetting - 1) : Nat) : Int) ≤ 100000 := by
    exact_mod_cast Nat.pow_le_pow_right (by decide : 0 < 10) (by omega : c.carriageSetting - 1 ≤ 5)
  calc |turnWeight n c| = n * ((10 ^ (c.carriageSetting - 1) : Nat) : Int) := abs_turnWeight (by omega) c
    _ ≤ 32767 * 100000 := mul_le_mul hi weight (Int.natCast_nonneg _) (by decide)

theorem abs_turnValue_le : |turnValue n c| ≤ 327669996723300000 := by
  have weight := abs_turnWeight_le hinv lo hi
  obtain ⟨setting, -⟩ := hinv
  calc |turnValue n c| = (c.settingRegisters : Int) * |turnWeight n c| := abs_turnValue n c
    _ ≤ 99999999 * 3276700000 := mul_le_mul (by omega) weight (abs_nonneg _) (by decide)

end

/-- A bank moves a value at most by its own contents. -/
theorem abs_natCast_add_le (a : Nat) (x : Int) : |(a : Int) + x| ≤ (a : Int) + |x| :=
  (abs_add_le _ _).trans_eq (by rw [Nat.abs_cast])

/-- A 64-bit word holds an integer of the signed range exactly. -/
theorem toInt_ofInt64 {x : Int} (h : |x| < 2 ^ 63) : (BitVec.ofInt 64 x).toInt = x := by
  obtain ⟨lo, hi⟩ := abs_lt.mp h
  exact BitVec.toInt_ofInt_eq_self (by decide) lo.le hi

/-- A 64-bit addition gives a sum of the signed range exactly. -/
theorem toInt_ofNat_add_ofInt64 {a : Nat} {x : Int} (h : |(a : Int) + x| < 2 ^ 63) :
    (BitVec.ofNat 64 a + BitVec.ofInt 64 x).toInt = (a : Int) + x := by
  rw [← BitVec.ofInt_natCast, ← BitVec.ofInt_add, toInt_ofInt64 h]

/-- Settles O47: `n * 10^(K-1)` is at most `32767 * 10^5` and `S` below `10^8`; every other bound follows. -/
theorem turnIntermediatesFit : Obligations.TurnIntermediatesFit := by
  refine ⟨multiplier_eq_one_or, fun n c hinv lo hi => ?_⟩
  have weight := abs_turnWeight_le hinv lo hi
  have value := abs_turnValue_le hinv lo hi
  obtain ⟨-, countingBank, resultBank, -⟩ := hinv
  have counting := abs_natCast_add_le c.countingRegisters (turnWeight n c)
  have result := abs_natCast_add_le c.resultRegisters (turnValue n c)
  exact ⟨one_le_abs_turnWeight lo c, weight, by omega, value, by omega, by omega, by omega,
    toInt_ofInt64 (by omega), toInt_ofInt64 (by omega), toInt_ofNat_add_ofInt64 (by omega),
    toInt_ofNat_add_ofInt64 (by omega)⟩

end Sys2Proof.Machine

/-! # Proofs of the exceptions family (`60_exceptions.md`)

The words without a row of the opcode table as the illegal words (R118), the domain of every command as its range check
(R111), the later commands after a failed one as a run from the same five fields (R112), and one valid outcome for
every word (R125). -/

namespace Sys2Proof

/-! ### Words that match no row (R54, R61) -/

/-- A word whose opcode is no row's is illegal for its opcode. -/
theorem decode_of_unassigned {w : CmdWord} (h : ∀ m : Mnemonic, fieldOp w ≠ m.opcode) :
    decode w = .illegal .unassignedOpcode := by
  have numbers : ∀ m ∈ allMnemonics, (fieldOp w).toNat ≠ m.opcode.toNat :=
    fun m _ e => h m (BitVec.eq_of_toNat_eq e)
  simp only [allMnemonics, List.forall_mem_cons, Mnemonic.opcode, BitVec.toNat_ofNat] at numbers
  unfold decode
  split
  case h_16 => rfl
  all_goals omega

/-- A word with an unassigned opcode matches no row. -/
theorem not_matches_row_of_unassigned {w : CmdWord} (h : ∀ m : Mnemonic, fieldOp w ≠ m.opcode) (m : Mnemonic) :
    w &&& m.row.mask ≠ m.row.bits :=
  fun matched => h m ((matches_row_iff m w).mp matched).1

/-- The decoder gives no command to a word that matches no row. -/
theorem decode_of_no_row {w : CmdWord} (h : ∀ m : Mnemonic, w &&& m.row.mask ≠ m.row.bits) :
    ∃ why, decode w = .illegal why := by
  by_cases assigned : ∃ m : Mnemonic, fieldOp w = m.opcode
  · obtain ⟨m, hop⟩ := assigned
    exact ⟨.unusedFieldNonzero, by rw [decode_of_fieldOp hop]; simp [OpRow.matchesWord, legalIf, h m]⟩
  · exact ⟨.unassignedOpcode, decode_of_unassigned (not_exists.mp assigned)⟩

/-- Every mnemonic has its row in the table. -/
theorem row_mem_opcodeTable (m : Mnemonic) : m.row ∈ opcodeTable :=
  List.mem_map_of_mem (by cases m <;> decide)

end Sys2Proof

namespace Sys2Proof.Machine

/-- Settles O12: a word without a row is one of an unassigned opcode or one that misses its opcode's row, and neither
decodes. -/
theorem illegalWordChangesNothing : Obligations.IllegalWordChangesNothing := by
  refine ⟨fun s w why h => step_present_of_illegal h s, fun s w h => ?_, fun w h row hrow => ?_, fun m => ?_⟩
  · obtain ⟨why, illegal⟩ := decode_of_no_row fun m => h m.row (row_mem_opcodeTable m)
    exact step_present_of_illegal illegal s
  · obtain ⟨m, -, rfl⟩ := List.mem_map.mp hrow
    exact not_matches_row_of_unassigned h m
  · cases m <;> decide

/-! ### The causes of RangeError (R111) -/

theorem carriageCheck_eq_some {n : Int} : carriageCheck n = some .carriage ↔ n < 1 ∨ n > 6 := by
  rw [carriageCheck, Option.ite_none_right_eq_some, and_iff_left rfl]
  rfl

theorem registerCheck_eq_some {b : Bank} {r : Int} :
    registerCheck b r = some .registerIndex ↔ r < 1 ∨ r > (b.digits : Int) := by
  rw [registerCheck, Option.ite_none_right_eq_some, and_iff_left rfl]

theorem digitCheck_eq_some {v : Int} : digitCheck v = some .digitValue ↔ v < 0 ∨ v > 9 := by
  rw [digitCheck, Option.ite_none_right_eq_some, and_iff_left rfl]

theorem turnCheck_eq_some {n : Int} : turnCheck n = some .turnCount ↔ n < 1 := by
  rw [turnCheck, Option.ite_none_right_eq_some, and_iff_left rfl]

/-- The complete list of the commands and operands that raise RangeError (R111). -/
def OutOfDomain (i : Instr) : Prop :=
  (∃ n, i = .setcar n ∧ (n < 1 ∨ n > 6)) ∨
  (∃ r, i = .rdsetd r ∧ (r < 1 ∨ r > 8)) ∨
  (∃ r, i = .rdcntd r ∧ (r < 1 ∨ r > 6)) ∨
  (∃ r, i = .rdresd r ∧ (r < 1 ∨ r > 11)) ∨
  (∃ r v, i = .setreg r v ∧ ((r < 1 ∨ r > 8) ∨ (v < 0 ∨ v > 9))) ∨
  (∃ n, i = .turn n ∧ n < 1)

/-- A command's range check fails exactly on the list. -/
theorem rangeCheck_ne_none_iff (i : Instr) : rangeCheck i ≠ none ↔ OutOfDomain i := by
  cases i with
  | setcar n => simp [OutOfDomain, rangeCheck, carriageCheck_eq_none, not_and_or, -not_and]
  | rdsetd r => simp [OutOfDomain, rangeCheck, registerCheck_eq_none, not_and_or, -not_and]
  | rdcntd r => simp [OutOfDomain, rangeCheck, registerCheck_eq_none, not_and_or, -not_and]
  | rdresd r => simp [OutOfDomain, rangeCheck, registerCheck_eq_none, not_and_or, -not_and]
  | setreg r v => simp [OutOfDomain, rangeCheck, setregCheck_eq_none, not_and_or, -not_and]
  | turn n => simp [OutOfDomain, rangeCheck, turnCheck_eq_none]
  | _ => simp [OutOfDomain, rangeCheck]

/-- Settles O23: a command's range check fails exactly on the list, and decides between its two answers. -/
theorem rangeErrorCausesAreComplete : Obligations.RangeErrorCausesAreComplete := by
  refine ⟨fun _ => carriageCheck_eq_some, fun _ => registerCheck_eq_some, fun _ => registerCheck_eq_some,
    fun _ => registerCheck_eq_some, fun _ => digitCheck_eq_some, fun _ => turnCheck_eq_some, fun i s => ?_⟩
  by_cases hc : rangeCheck i = none
  · have inDomain : ¬OutOfDomain i := fun out => (rangeCheck_ne_none_iff i).mpr out hc
    exact ⟨_, _, exec_eq_of_in_domain hc s, rfl, iff_of_false Status.noConfusion inDomain, fun _ => rfl,
      Status.noConfusion⟩
  · have out : OutOfDomain i := (rangeCheck_ne_none_iff i).mp hc
    exact ⟨_, _, exec_of_out_of_domain hc s, rfl, iff_of_true rfl out, fun ne => absurd rfl ne,
      fun _ => ⟨rfl, rfl⟩⟩

/-! ### Commands after a failed one (R112) -/

/-- A command answered with another status than OK has changed none of the five fields. -/
theorem exec_engine_of_not_ok {i : Instr} {s t : State} {r : Response} (h : exec i s = .next t)
    (response : t.response = some r) (failed : r.status ≠ .ok) : t.engine = s.engine := by
  by_cases hc : rangeCheck i = none
  · obtain rfl := Host.Outcome.next.inj ((exec_eq_of_in_domain hc s).symm.trans h)
    obtain rfl := Option.some.inj response
    exact absurd rfl failed
  · obtain rfl := Host.Outcome.next.inj ((exec_of_out_of_domain hc s).symm.trans h)
    rfl

/-- A run's effect and answers depend on the five fields alone. -/
theorem execAll_congr (js : List Instr) {s t : State} (h : t.engine = s.engine) :
    ∃ t' s' rs, execAll js t = .next t' ∧ execAll js s = .next s' ∧ t'.engine = s'.engine ∧
      rs.length = js.length ∧ t'.responses = t.responses ++ rs ∧ s'.responses = s.responses ++ rs ∧
      ((js = [] → t.response = s.response) → t'.response = s'.response) := by
  induction js generalizing s t with
  | nil => exact ⟨t, s, [], rfl, rfl, h, rfl, by simp, by simp, fun same => same rfl⟩
  | cons j js ih =>
    obtain ⟨c, r, ht, hs⟩ := exec_congr h j
    obtain ⟨t', s', rs, runT, runS, engine, length, recordT, recordS, port⟩ :=
      ih (s := s.answer c r) (t := t.answer c r) rfl
    exact ⟨t', s', r :: rs, (execAll_cons ht js).trans runT, (execAll_cons hs js).trans runS, engine,
      by simp [length], by simp [recordT], by simp [recordS], fun _ => port fun _ => rfl⟩

/-- Settles O22: a failure leaves the five fields, on which alone every later command depends. -/
theorem failedCommandLeavesNoTrace : Obligations.FailedCommandLeavesNoTrace := by
  rintro i s t h ⟨r, response, failed⟩
  have same := exec_engine_of_not_ok h response failed
  refine ⟨same, fun js => ?_⟩
  obtain ⟨t', s', rs, runT, runS, engine, length, recordT, recordS, port⟩ := execAll_congr js same
  exact ⟨t', s', rs, runT, runS, engine, length, recordT, recordS, fun ne => port fun nil => absurd nil ne⟩

/-! ### One valid outcome for every word (R125) -/

/-- What holds of a present value and of the old one holds of the merged one. -/
theorem getD_of_forall_mem {α : Type} {P : α → Prop} {new : Option α} {old : α} (hnew : ∀ a ∈ new, P a)
    (hold : P old) : P (new.getD old) := by
  cases new with
  | none => exact hold
  | some a => exact hnew a rfl

/-- A present value, once normalised, is below its bank's modulus. -/
theorem lt_modulus_of_mem_map_norm {b : Bank} {v : Option Int} : ∀ n ∈ v.map (norm b), n < b.modulus := by
  intro n hn
  obtain ⟨x, -, rfl⟩ := Option.mem_map.mp hn
  exact norm_lt b x

/-- A merge keeps R16 if the setting and the carriage it writes are in their ranges; the other two banks are
normalised. -/
theorem merge_inv {c : CalculatorState} {u : PartialUpdate} (hinv : c.Inv) (hset : ∀ n ∈ u.setting, n < 10 ^ 8)
    (hcar : ∀ k ∈ u.carriage, 1 ≤ k ∧ k ≤ 6) : (c.merge u).Inv := by
  obtain ⟨setting, counting, result, carriage⟩ := hinv
  exact ⟨getD_of_forall_mem (P := (· < 10 ^ 8)) hset setting,
    getD_of_forall_mem (P := (· < Bank.counting.modulus)) lt_modulus_of_mem_map_norm counting,
    getD_of_forall_mem (P := (· < Bank.result.modulus)) lt_modulus_of_mem_map_norm result,
    getD_of_forall_mem (P := fun k => 1 ≤ k ∧ k ≤ 6) hcar carriage⟩

/-- A setting bank that a command in its domain writes is in range: only `SETREG` writes one. -/
theorem updateOf_setting_lt {i : Instr} (h : rangeCheck i = none) (c : CalculatorState) :
    ∀ n ∈ (updateOf i c).setting, n < 10 ^ 8 := by
  cases i with
  | setreg r v =>
    obtain ⟨-, -, hv⟩ := setregCheck_eq_none.mp h
    rintro n ⟨⟩
    exact digitWrite_lt _ _ (by omega)
  | _ => rintro n ⟨⟩

/-- A carriage position that a command in its domain writes is in range: only `SETCAR` writes one. -/
theorem updateOf_carriage_range {i : Instr} (h : rangeCheck i = none) (c : CalculatorState) :
    ∀ k ∈ (updateOf i c).carriage, 1 ≤ k ∧ k ≤ 6 := by
  cases i with
  | setcar n =>
    have inRange := carriageCheck_eq_none.mp h
    rintro k ⟨⟩
    omega
  | _ => rintro k ⟨⟩

/-- Under R16 every answered value fits the data of a response. -/
theorem dataOf_lt {c : CalculatorState} (hinv : c.Inv) (i : Instr) : dataOf i c < 10 ^ 11 := by
  have bank (b : Bank) : c.bank b < 10 ^ 11 := (bank_lt_modulus hinv b).trans_le (modulus_le_result b)
  have digit (b : Bank) (r : Nat) : c.digitRead b r < 10 ^ 11 := (digitRead_lt c b r).trans (by decide)
  obtain ⟨-, -, -, -, carriage⟩ := hinv
  cases i with
  | rdcar => exact carriage.trans_lt (by decide)
  | rdset => exact bank .setting
  | rdcnt => exact bank .counting
  | rdres => exact bank .result
  | rdsetd r => exact digit .setting r.toNat
  | rdcntd r => exact digit .counting r.toNat
  | rdresd r => exact digit .result r.toNat
  | _ => exact Nat.pow_pos (by decide)

/-- An OK answer whose data fits is valid. -/
theorem valid_mkResponse_ok {d : Nat} (h : d < 10 ^ 11) : (mkResponse .ok d).valid :=
  ⟨(toNat_mkResponse_data .ok h).trans_lt h, fun ne => absurd rfl ne⟩

/-- An answer without data is valid, whatever its status. -/
theorem valid_mkResponse_zero (st : Status) : (mkResponse st 0).valid :=
  ⟨(toNat_mkResponse_data st (by decide)).trans_lt (by decide), fun _ => rfl⟩

/-- A command keeps R16 and answers a valid response. -/
theorem exec_keeps_inv (i : Instr) {s : State} (hinv : s.engine.Inv) :
    ∃ (c : CalculatorState) (r : Response), exec i s = .next (s.answer c r) ∧ c.Inv ∧ r.valid := by
  by_cases hc : rangeCheck i = none
  · exact ⟨_, _, exec_eq_of_in_domain hc s,
      merge_inv hinv (updateOf_setting_lt hc s.engine) (updateOf_carriage_range hc s.engine),
      valid_mkResponse_ok (dataOf_lt hinv i)⟩
  · exact ⟨_, _, exec_of_out_of_domain hc s, hinv, valid_mkResponse_zero .rangeError⟩

/-- A presented word keeps R16 and is answered with a valid response. -/
theorem step_present_keeps_inv (w : CmdWord) {s : State} (hinv : s.engine.Inv) :
    ∃ (c : CalculatorState) (r : Response), step (s.present w) = .next (s.answer c r) ∧ c.Inv ∧ r.valid := by
  cases hd : decode w with
  | legal i =>
    rw [step_present_of_legal hd]
    exact exec_keeps_inv i hinv
  | illegal why => exact ⟨_, _, step_present_of_illegal hd s, hinv, valid_mkResponse_zero .illegalCommand⟩

/-- An answered state tells the five fields and the response it was answered with. -/
theorem answer_injective {s : State} {c c' : CalculatorState} {r r' : Response} (h : s.answer c r = s.answer c' r') :
    c = c' ∧ r = r' :=
  ⟨congrArg State.engine h, Option.some.inj (congrArg State.response h)⟩

/-- Settles O19: a presented word is answered within R16 by one answer, which its outcome determines. -/
theorem everyWordIsAnswered : Obligations.EveryWordIsAnswered := by
  intro s w hinv
  obtain ⟨c, r, outcome, keeps, valid⟩ := step_present_keeps_inv w hinv
  exact ⟨c, r, outcome, keeps, valid, fun c' r' other =>
    answer_injective (Host.Outcome.next.inj (other.symm.trans outcome))⟩

end Sys2Proof.Machine

/-! # Proofs of the encoding statements that several rules share (`30_encoding.md` sections 2, 3 and 5)

A command is its mnemonic with its two arguments, and a word decodes to the command of the one row it matches: from
these, the round trips, the opcode table and the commands as they are written. -/

namespace Sys2Proof

/-! ### A command and its arguments (R51, R52) -/

/-- A command is its mnemonic's with its own arguments. -/
theorem command_args (i : Instr) : i.mnemonic.command i.argA i.argB = i := by cases i <;> rfl

theorem argA_command (m : Mnemonic) (a b : Int) : (m.command a b).argA = if m.usesA then a else 0 := by
  cases m <;> rfl

theorem argB_command (m : Mnemonic) (a b : Int) : (m.command a b).argB = if m.usesB then b else 0 := by
  cases m <;> rfl

/-- A command has 0 for an argument it does not use. -/
theorem usesA_or_argA_eq_zero (i : Instr) : i.mnemonic.usesA ∨ i.argA = 0 := by
  rw [← command_args i, mnemonic_command, argA_command, ite_eq_right_iff]
  exact or_iff_not_imp_left.mpr fun unused used => absurd used unused

theorem usesB_or_argB_eq_zero (i : Instr) : i.mnemonic.usesB ∨ i.argB = 0 := by
  rw [← command_args i, mnemonic_command, argB_command, ite_eq_right_iff]
  exact or_iff_not_imp_left.mpr fun unused used => absurd used unused

/-- A command can be assembled exactly when its arguments fit their fields. -/
theorem wellFormed_iff (i : Instr) : i.wellFormed = true ↔ fitsA i.argA = true ∧ fitsB i.argB = true := by
  have zeroA : fitsA 0 = true := rfl
  have zeroB : fitsB 0 = true := rfl
  cases i <;> simp [Instr.wellFormed, Instr.argA, Instr.argB, zeroA, zeroB, fitsTurn_iff_fitsB]

/-! ### Decode of encode (R61) -/

theorem decode_encode {i : Instr} (h : i.wellFormed = true) : decode (encode i) = .legal i := by
  obtain ⟨ha, hb⟩ := (wellFormed_iff i).mp h
  have unusedA : i.mnemonic.usesA ∨ BitVec.ofInt 8 i.argA = 0#8 :=
    (usesA_or_argA_eq_zero i).imp_right fun zero => by rw [zero]; rfl
  have unusedB : i.mnemonic.usesB ∨ BitVec.ofInt 16 i.argB = 0#16 :=
    (usesB_or_argB_eq_zero i).imp_right fun zero => by rw [zero]; rfl
  rw [encode, packWord, decode_threeFields _ unusedA unusedB, sext_ofInt8 ha, sext_ofInt16 hb, command_args]

/-- Settles O1: the fields of the packed word hold the arguments, and the decoder reads the fields back. -/
theorem decodeEncodeRoundTrip : Obligations.DecodeEncodeRoundTrip := fun _ h => decode_encode h

theorem decode_of_encode_eq {i : Instr} {w : CmdWord} (h : i.wellFormed = true) (e : encode i = w) :
    decode w = .legal i := e ▸ decode_encode h

/-- Settles O7: each legal word is the encoding of its command, and no row has the opcode 0. -/
theorem writtenWordsDecode : Obligations.WrittenWordsDecode := by
  have unassigned (m : Mnemonic) : fieldOp 0#32 ≠ m.opcode := by cases m <;> decide
  refine ⟨decode_of_encode_eq ?_ ?_, decode_of_encode_eq ?_ ?_, decode_of_encode_eq ?_ ?_, decode_of_encode_eq ?_ ?_,
    decode_of_encode_eq ?_ ?_, decode_of_encode_eq ?_ ?_, decode_of_encode_eq ?_ ?_, decode_of_encode_eq ?_ ?_,
    decode_of_unassigned unassigned⟩
  all_goals decide

/-! ### The decoder as the opcode table (R52, R61) -/

theorem legalIf_eq_legal_iff {b : Bool} {i j : Instr} : legalIf b i = .legal j ↔ b = true ∧ i = j := by
  cases b <;> simp [legalIf]

/-- A word decodes exactly to the command of a row it matches, with the operands of its fields. -/
theorem decode_eq_legal_iff {w : CmdWord} {i : Instr} :
    decode w = .legal i ↔
      ∃ m : Mnemonic, w &&& m.row.mask = m.row.bits ∧ m.command (operandA w) (operandB w) = i := by
  have decoded {m : Mnemonic} (hop : fieldOp w = m.opcode) :
      decode w = .legal i ↔ w &&& m.row.mask = m.row.bits ∧ m.command (operandA w) (operandB w) = i := by
    rw [decode_of_fieldOp hop, legalIf_eq_legal_iff, OpRow.matchesWord, beq_iff_eq]
  constructor
  · intro legal
    by_cases assigned : ∃ m : Mnemonic, fieldOp w = m.opcode
    · obtain ⟨m, hop⟩ := assigned
      exact ⟨m, (decoded hop).mp legal⟩
    · rw [decode_of_unassigned (not_exists.mp assigned)] at legal
      exact Decoded.noConfusion legal
  · rintro ⟨m, matched⟩
    exact (decoded ((matches_row_iff m w).mp matched.1).1).mpr matched

/-- The encoding of a word's command with the fields' values is the word, if the word matches the command's row. -/
theorem encode_command_of_matches {m : Mnemonic} {w : CmdWord} (h : w &&& m.row.mask = m.row.bits) :
    encode (m.command (operandA w) (operandB w)) = w := by
  obtain ⟨hop, ha, hb⟩ := (matches_row_iff m w).mp h
  have fieldA_kept : BitVec.ofInt 8 (if m.usesA then operandA w else 0) = fieldA w := by
    by_cases used : m.usesA
    · rw [if_pos used, operandA, ofInt_sext8]
    · rw [if_neg used, ha.resolve_left used]; rfl
  have fieldB_kept : BitVec.ofInt 16 (if m.usesB then operandB w else 0) = fieldB w := by
    by_cases used : m.usesB
    · rw [if_pos used, operandB, ofInt_sext16]
    · rw [if_neg used, hb.resolve_left used]; rfl
  rw [encode, packWord, mnemonic_command, argA_command, argB_command, fieldA_kept, fieldB_kept, ← hop, fields_append]

/-- The values of a word's fields fit their fields. -/
theorem wellFormed_command_operands (m : Mnemonic) (w : CmdWord) :
    (m.command (operandA w) (operandB w)).wellFormed = true := by
  rw [wellFormed_iff, argA_command, argB_command]
  constructor
  · by_cases used : m.usesA
    · rw [if_pos used]; exact fitsA_sext _
    · rw [if_neg used]; rfl
  · by_cases used : m.usesB
    · rw [if_pos used]; exact fitsB_sext _
    · rw [if_neg used]; rfl

/-- Settles O2: a legal word matches its command's row, and the command holds the values of the word's fields. -/
theorem encodeDecodeRoundTrip : Obligations.EncodeDecodeRoundTrip := by
  intro w i legal
  obtain ⟨m, matched, rfl⟩ := decode_eq_legal_iff.mp legal
  exact ⟨wellFormed_command_operands m w, encode_command_of_matches matched⟩

/-- A word matches at most one row: the rows' opcodes differ. -/
theorem eq_of_matches_rows {m m' : Mnemonic} {w : CmdWord} (h : w &&& m.row.mask = m.row.bits)
    (h' : w &&& m'.row.mask = m'.row.bits) : m = m' :=
  opcode_injective (((matches_row_iff m w).mp h).1.symm.trans ((matches_row_iff m' w).mp h').1)

/-- Settles O3: the decoder gives the command of the matched row, and rows of different mnemonics exclude each
other. -/
theorem decoderAgreesWithOpcodeTable : Obligations.DecoderAgreesWithOpcodeTable := by
  refine ⟨fun m w => ⟨fun matched => ?_, ?_⟩, ?_, fun m => ⟨row_mem_opcodeTable m, by cases m <;> rfl⟩⟩
  · exact ⟨_, decode_eq_legal_iff.mpr ⟨m, matched, rfl⟩, mnemonic_command ..⟩
  · rintro ⟨i, legal, rfl⟩
    obtain ⟨m, matched, rfl⟩ := decode_eq_legal_iff.mp legal
    rwa [mnemonic_command]
  · have distinct : allMnemonics.Pairwise (· ≠ ·) := by decide
    exact List.pairwise_map.mpr (distinct.imp fun ne w both => ne (eq_of_matches_rows both.1 both.2))

/-! ### The operands as the fields' values (R51) -/

/-- The two's-complement value of a field is congruent to its unsigned value. -/
theorem sext_emod {n : Nat} (v : BitVec n) : sext v % ((2 ^ n : Nat) : Int) = (v.toNat : Int) := by
  have unsigned : (v.toNat : Int) % ((2 ^ n : Nat) : Int) = v.toNat := by exact_mod_cast Nat.mod_eq_of_lt v.isLt
  unfold sext
  split
  · exact unsigned
  · rw [Int.sub_emod_right, unsigned]

theorem fitsA_iff {x : Int} : fitsA x = true ↔ -128 ≤ x ∧ x ≤ 127 := by simp [fitsA]

theorem fitsB_iff {x : Int} : fitsB x = true ↔ -32768 ≤ x ∧ x ≤ 32767 := by simp [fitsB]

/-- Settles O5: a field's value lies in its range and is congruent to the unsigned value; a packed word's fields hold
any two values of the ranges. -/
theorem operandsAreSignedFields : Obligations.OperandsAreSignedFields := by
  refine ⟨fun w => ?_, fun w => ?_, fun a b ha ha' hb hb' => ⟨packWord 0 a b, ?_, ?_⟩⟩
  · obtain ⟨lo, hi⟩ := fitsA_iff.mp (fitsA_sext (fieldA w))
    exact ⟨lo, hi, sext_emod (fieldA w)⟩
  · obtain ⟨lo, hi⟩ := fitsB_iff.mp (fitsB_sext (fieldB w))
    exact ⟨lo, hi, sext_emod (fieldB w)⟩
  · rw [operandA, fieldA_packWord, sext_ofInt8 (fitsA_iff.mpr ⟨ha, ha'⟩)]
  · rw [operandB, fieldB_packWord, sext_ofInt16 (fitsB_iff.mpr ⟨hb, hb'⟩)]

/-! ### Written commands (R58, R59) -/

/-- A command's operands in the order it is written with. -/
def Instr.operands : Instr → List Int
  | .setcar n => [n]
  | .rdsetd r => [r]
  | .rdcntd r => [r]
  | .rdresd r => [r]
  | .setreg r v => [r, v]
  | .turn n => [n]
  | _ => []

/-- A command written with its own mnemonic and operands is assembled if it is well-formed. -/
theorem assemble_operands (i : Instr) : assemble i.mnemonic i.operands = (some i).filter Instr.wellFormed := by
  cases i <;> rfl

/-- What is assembled has the written mnemonic and is well-formed. -/
theorem wellFormed_and_mnemonic_of_assemble {m : Mnemonic} {ops : List Int} {i : Instr}
    (h : assemble m ops = some i) : i.wellFormed = true ∧ i.mnemonic = m := by
  obtain ⟨written, wellFormed⟩ := Option.filter_eq_some_iff.mp h
  refine ⟨wellFormed, ?_⟩
  split at written <;> cases written <;> rfl

/-- Settles O8: `assemble` keeps the written mnemonic and filters by well-formedness. -/
theorem assembledCommandsAreTheEncodable : Obligations.AssembledCommandsAreTheEncodable :=
  ⟨fun _ _ _ h => wellFormed_and_mnemonic_of_assemble h,
    fun i h => ⟨i.operands, (assemble_operands i).trans (Option.filter_eq_some_iff.mpr ⟨rfl, h⟩)⟩⟩

/-- Settles O9: an omitted argument gives another command or the count 1, and `RDSETD r` is assembled if `r` fits the
field `a`. -/
theorem sourceOperationsExpand : Obligations.SourceOperationsExpand := by
  refine ⟨by decide, by decide, by decide, by decide, by decide, fun r => ?_⟩
  calc assemble .RDSETD [r] = some (.rdsetd r)
      ↔ (some (.rdsetd r)).filter Instr.wellFormed = some (.rdsetd r) := by rw [← assemble_operands]; rfl
    _ ↔ fitsA r = true := by rw [Option.filter_eq_some_iff, and_iff_right rfl]; rfl
    _ ↔ -128 ≤ r ∧ r ≤ 127 := fitsA_iff

end Sys2Proof

namespace Sys2Proof.Machine

/-! ### The response as one word (R55) -/

theorem code_ne_three (st : Status) : st.code ≠ 3#2 := by cases st <;> decide

theorem code_eq_zero_iff {st : Status} : st.code = 0#2 ↔ st = .ok := by cases st <;> decide

theorem code_eq_one_iff {st : Status} : st.code = 1#2 ↔ st = .rangeError := by cases st <;> decide

/-- Settles O10: the word is the code above the data, and no two statuses share a code. -/
theorem responseWordLayout : Obligations.ResponseWordLayout := fun r =>
  ⟨BitVec.extractLsb'_append_eq_left, BitVec.extractLsb'_append_eq_right, code_ne_three r.status, code_eq_zero_iff,
    code_eq_one_iff⟩

end Sys2Proof.Machine

/-! # Proofs of the step and run statements (`70_reset_and_hazards.md`, `60_exceptions.md`)

What one slot does by what its ports present (R57, R114, R131, R135), the invariant of R16 with valid responses over
every step, and the runs of a fixed sequence and of a response-dependent host, one presented word at a time (R120,
R136). -/

namespace Sys2Proof.Machine

/-! ### One slot by what it presents -/

theorem step_of_nothing {s t : State} (h : s.takeInput = (.nothing, t)) : step s = .next t.idle := by
  simp only [step, h]

theorem step_of_reset {s t : State} (h : s.takeInput = (.reset, t)) : step s = .next t.resetEvent := by
  simp only [step, h]

theorem step_of_commandDuringReset {s t : State} (h : s.takeInput = (.commandDuringReset, t)) :
    step s = .fault .commandDuringReset := by
  simp only [step, h]

/-- A machine with a command presented next is the machine after that slot with the word presented. -/
theorem eq_present_of_inputs {s : State} {w : CmdWord} {rest : List PortsIn}
    (h : s.inputs = PortsIn.ofCommand w :: rest) : s = ({ s with inputs := rest } : State).present w := by
  rw [State.present, ← h]

/-- Settles O11: the machine is the one that presents the word to the machine without that slot. -/
theorem stepRunsDecodedCommand : Obligations.StepRunsDecodedCommand := by
  intro s w rest i inputs legal
  rw [eq_present_of_inputs inputs]
  exact step_present_of_legal legal _

/-- Settles O13: the slot presents a reset. -/
theorem resetInputRestoresResetState : Obligations.ResetInputRestoresResetState :=
  fun _ _ _ inputs => step_of_reset (takeInput_cons inputs)

/-- Settles O14: an exhausted sequence and a slot with both ports low present nothing. -/
theorem nothingPresentedChangesNothing : Obligations.NothingPresentedChangesNothing :=
  ⟨fun _ inputs => step_of_nothing (takeInput_nil inputs),
    fun _ _ _ inputs => step_of_nothing (takeInput_cons inputs)⟩

theorem presented_eq_commandDuringReset_iff {p : PortsIn} :
    p.presented = .commandDuringReset ↔ ∃ w, p = ⟨true, true, w⟩ := by
  obtain ⟨rst, cmdValid, cmd⟩ := p
  cases rst <;> cases cmdValid <;> simp [PortsIn.presented]

/-- A command under `rst` is presented by the head of the host's sequence. -/
theorem takeInput_eq_commandDuringReset_iff {s : State} :
    s.takeInput.1 = .commandDuringReset ↔ ∃ w rest, s.inputs = ⟨true, true, w⟩ :: rest := by
  cases h : s.inputs with
  | nil => simp [takeInput_nil h]
  | cons p rest =>
    rw [takeInput_cons h, presented_eq_commandDuringReset_iff]
    simp

/-- Settles O15: of the five things a step can do, only a command under `rst` gives no next state. -/
theorem onlyCommandUnderResetStops : Obligations.OnlyCommandUnderResetStops := by
  intro s
  rw [← takeInput_eq_commandDuringReset_iff]
  refine ⟨fun stop => step_of_commandDuringReset (t := s.takeInput.2) (Prod.ext stop rfl), fun other => ?_⟩
  rcases step_cases s with ⟨-, h⟩ | ⟨-, h⟩ | ⟨w, i, -, -, h⟩ | ⟨w, why, -, -, h⟩ | ⟨stop, -⟩
  · exact ⟨_, h⟩
  · exact ⟨_, h⟩
  · obtain ⟨u, r, answered⟩ := exec_answers i s.takeInput.2
    exact ⟨_, h.trans answered⟩
  · exact ⟨_, h⟩
  · exact absurd stop other

/-- What a step that does not stop has done to the machine without its slot. -/
theorem step_next_cases {s t : State} (h : step s = .next t) :
    t = s.takeInput.2.idle ∨ t = s.takeInput.2.resetEvent ∨ (∃ i, exec i s.takeInput.2 = .next t) ∨
      t = s.takeInput.2.answer s.takeInput.2.engine (mkResponse .illegalCommand 0) := by
  rcases step_cases s with ⟨-, e⟩ | ⟨-, e⟩ | ⟨w, i, -, -, e⟩ | ⟨w, why, -, -, e⟩ | ⟨-, e⟩
  · exact .inl (Host.Outcome.next.inj (h.symm.trans e))
  · exact .inr (.inl (Host.Outcome.next.inj (h.symm.trans e)))
  · exact .inr (.inr (.inl ⟨i, e.symm.trans h⟩))
  · exact .inr (.inr (.inr (Host.Outcome.next.inj (h.symm.trans e))))
  · exact nomatch e.symm.trans h

/-- Settles O21: a slot without an answer leaves the record, and an answer is appended to it. -/
theorem responsesAreNeverAltered : Obligations.ResponsesAreNeverAltered := by
  intro s t h
  rw [← takeInput_responses s]
  rcases step_next_cases h with rfl | rfl | ⟨i, e⟩ | rfl
  · exact .inl rfl
  · exact .inl rfl
  · obtain ⟨u, r, answered⟩ := exec_answers i s.takeInput.2
    obtain rfl := Host.Outcome.next.inj (answered.symm.trans e)
    exact .inr ⟨r, rfl, rfl⟩
  · exact .inr ⟨_, rfl, rfl⟩

/-! ### The invariant (R16) -/

/-- R16 at reset (R26). -/
theorem initial_inv : CalculatorState.initial.Inv := by decide

/-- Settles O17: the reset state has no response yet. -/
theorem resetMeetsInvariants : Obligations.ResetMeetsInvariants :=
  ⟨initial_inv, List.forall_mem_nil _, .inl rfl⟩

/-- An answer within R16 by a valid response keeps the invariant. -/
theorem answer_inv {s : State} {c : CalculatorState} {r : Response} (hrec : ∀ a ∈ s.responses, a.valid) (hc : c.Inv)
    (hr : r.valid) : (s.answer c r).Inv :=
  ⟨hc, List.forall_mem_append.mpr ⟨hrec, List.forall_mem_singleton.mpr hr⟩, .inr List.getLast?_concat.symm⟩

/-- Settles O18: a slot idles, resets, or gives one answer, which keeps R16 and is valid. -/
theorem stepKeepsInvariants : Obligations.StepKeepsInvariants := by
  rintro s t ⟨engine, record, -⟩ h
  rw [← takeInput_engine s] at engine
  rw [← takeInput_responses s] at record
  rcases step_next_cases h with rfl | rfl | ⟨i, e⟩ | rfl
  · exact ⟨engine, record, .inl rfl⟩
  · exact ⟨initial_inv, record, .inl rfl⟩
  · obtain ⟨c, r, answered, keeps, valid⟩ := exec_keeps_inv i engine
    obtain rfl := Host.Outcome.next.inj (answered.symm.trans e)
    exact answer_inv record keeps valid
  · exact answer_inv record engine (valid_mkResponse_zero .illegalCommand)

/-! ### Runs, one presented word at a time (R120, R136) -/

/-- With nothing else to come, one word presented is a sequence of one word. -/
theorem present_eq_presentAll {s : State} (h : s.inputs = []) (w : CmdWord) : s.present w = s.presentAll [w] := by
  rw [State.present, h]
  rfl

theorem presentAll_nil {s : State} (h : s.inputs = []) : s.presentAll [] = s := by
  rw [State.presentAll, List.map_nil, ← h]

/-- The first word of a sequence is answered within R16 by one valid response, the same whatever follows it. -/
theorem step_presentAll_cons (w : CmdWord) {s : State} (hinv : s.engine.Inv) :
    ∃ (c : CalculatorState) (r : Response), c.Inv ∧ r.valid ∧
      ∀ ws, step (s.presentAll (w :: ws)) = .next ((s.answer c r).presentAll ws) := by
  obtain ⟨c, r, outcome, keeps, valid⟩ := step_present_keeps_inv w hinv
  refine ⟨c, r, keeps, valid, fun ws => ?_⟩
  obtain ⟨c', r', here, there⟩ := step_present_congr (presentAll_engine s ws).symm w
  obtain ⟨rfl, rfl⟩ := answer_injective (Host.Outcome.next.inj (outcome.symm.trans here))
  exact there

/-- Settles O20: by induction on the sequence, its first word being answered before the rest is served. -/
theorem runAnswersEveryWordOnce : Obligations.RunAnswersEveryWordOnce := by
  intro ws
  induction ws with
  | nil => exact fun s hinv => ⟨s.presentAll [], [], rfl, rfl, hinv, rfl, by simp, by simp⟩
  | cons w ws ih =>
    intro s hinv
    obtain ⟨c, r, keeps, valid, first⟩ := step_presentAll_cons w hinv
    obtain ⟨t, rs, run, inputs, engine, length, record, allValid⟩ := ih (s.answer c r) keeps
    exact ⟨t, r :: rs, (run_succ (first ws) ws.length).trans run, inputs, engine, by simp [length], by simp [record],
      List.forall_mem_cons.mpr ⟨valid, allValid⟩⟩

/-- A run of at most `k` transactions with a response-dependent host, as the run of the sequence `ws` it chooses: it
appends the responses `rs` and ends in `t`. -/
def IsFeedbackRun (host : FeedbackHost) (k : Nat) (s : State) (ws : List CmdWord) (rs : List Response) (t : State) :
    Prop :=
  runFeedback host k s = .next t ∧ core.run ws.length (s.presentAll ws) = .next t ∧
    ws.length ≤ k ∧ rs.length = ws.length ∧ t.responses = s.responses ++ rs ∧ (∀ r ∈ rs, r.valid) ∧
    t.inputs = [] ∧ t.engine.Inv ∧
    (∀ j, j < ws.length → host (s.responses ++ rs.take j) = ws[j]?) ∧
    (ws.length < k → host t.responses = none)

section
variable {host : FeedbackHost} {k : Nat} {s : State}

/-- A run with no transaction: none is left, or the host chooses none. -/
theorem isFeedbackRun_nil (hinv : s.engine.Inv) (inputs : s.inputs = []) (ended : 0 < k → host s.responses = none) :
    IsFeedbackRun host k s [] [] s := by
  have run : runFeedback host k s = .next s := by
    cases k with
    | zero => rfl
    | succ k => exact runFeedback_of_none (ended k.succ_pos) _
  exact ⟨run, by rw [presentAll_nil inputs]; rfl, Nat.zero_le k, rfl, by simp, by simp, inputs, hinv, by simp, ended⟩

/-- A run after the transaction of a chosen word `w` is a run with that word first. -/
theorem isFeedbackRun_cons {w : CmdWord} {c : CalculatorState} {r : Response} {ws : List CmdWord} {rs : List Response}
    {t : State} (choice : host s.responses = some w) (inputs : s.inputs = []) (valid : r.valid)
    (first : ∀ ws, step (s.presentAll (w :: ws)) = .next ((s.answer c r).presentAll ws))
    (rest : IsFeedbackRun host k (s.answer c r) ws rs t) : IsFeedbackRun host (k + 1) s (w :: ws) (r :: rs) t := by
  obtain ⟨feedback, run, bound, length, record, allValid, done, engine, chosen, ended⟩ := rest
  have alone : step (s.present w) = .next (s.answer c r) := by
    rw [present_eq_presentAll inputs, first, presentAll_nil (s := s.answer c r) inputs]
  refine ⟨(runFeedback_of_some choice alone k).trans feedback, (run_succ (first ws) ws.length).trans run,
    Nat.succ_le_succ bound, by simp [length], by simp [record], List.forall_mem_cons.mpr ⟨valid, allValid⟩, done,
    engine, fun j hj => ?_, fun h => ended (Nat.lt_of_succ_lt_succ h)⟩
  cases j with
  | zero => simpa using choice
  | succ j => simpa using chosen j (Nat.lt_of_succ_lt_succ hj)

end

/-- Settles O57: by induction on the number of transactions, the host choosing the first word from the responses
before the run. -/
theorem feedbackRunIsASequenceRun : Obligations.FeedbackRunIsASequenceRun := by
  intro host k
  induction k with
  | zero => exact fun s hinv inputs => ⟨[], [], s, isFeedbackRun_nil hinv inputs (by simp)⟩
  | succ k ih =>
    intro s hinv inputs
    cases choice : host s.responses with
    | none => exact ⟨[], [], s, isFeedbackRun_nil hinv inputs fun _ => choice⟩
    | some w =>
      obtain ⟨c, r, keeps, valid, first⟩ := step_presentAll_cons w hinv
      obtain ⟨ws, rs, t, rest⟩ := ih (s.answer c r) keeps inputs
      exact ⟨w :: ws, r :: rs, t, isFeedbackRun_cons choice inputs valid first rest⟩

end Sys2Proof.Machine

/-! # Proofs of the five-field statements (`10_state.md`, `41_bank_read.md`, `42_bank_write.md`)

The writers of each field from the update a command commits (R24), the digit codec as a sum over an array's entries
(R17, R19, R80), and digit writes in the digit view, where they replace entries of an array (R91). -/

namespace Sys2Proof.Machine

/-! ### The writers of each field (R24) -/

/-- A command touches none of the host's inputs, and its five fields are as they were or its one update's. -/
theorem exec_frame {i : Instr} {s t : State} (h : exec i s = .next t) :
    t.inputs = s.inputs ∧ (t.engine = s.engine ∨ t.engine = s.engine.merge (updateOf i s.engine)) := by
  by_cases hc : rangeCheck i = none
  · obtain rfl := Host.Outcome.next.inj ((exec_eq_of_in_domain hc s).symm.trans h)
    exact ⟨rfl, .inr rfl⟩
  · obtain rfl := Host.Outcome.next.inj ((exec_of_out_of_domain hc s).symm.trans h)
    exact ⟨rfl, .inl rfl⟩

section
variable {i : Instr} {c : CalculatorState}

/-- A field that a merge changes is present in the update. -/
theorem getD_ne_imp_ne_none {α : Type} {new : Option α} {old : α} (h : new.getD old ≠ old) : new ≠ none := by
  rintro rfl
  exact h rfl

theorem writes_setting (h : (updateOf i c).setting ≠ none) : ∃ r v, i = .setreg r v := by
  cases i with
  | setreg r v => exact ⟨r, v, rfl⟩
  | _ => exact absurd rfl h

theorem writes_counting (h : (updateOf i c).counting ≠ none) : (∃ n, i = .turn n) ∨ i = .clrcnt ∨ i = .clr := by
  cases i with
  | turn n => exact .inl ⟨n, rfl⟩
  | clrcnt => exact .inr (.inl rfl)
  | clr => exact .inr (.inr rfl)
  | _ => exact absurd rfl h

theorem writes_result (h : (updateOf i c).result ≠ none) : (∃ n, i = .turn n) ∨ i = .clrres ∨ i = .clr := by
  cases i with
  | turn n => exact .inl ⟨n, rfl⟩
  | clrres => exact .inr (.inl rfl)
  | clr => exact .inr (.inr rfl)
  | _ => exact absurd rfl h

theorem writes_carriage (h : (updateOf i c).carriage ≠ none) : ∃ n, i = .setcar n := by
  cases i with
  | setcar n => exact ⟨n, rfl⟩
  | _ => exact absurd rfl h

theorem writes_crank (h : (updateOf i c).crank ≠ none) : i = .lift ∨ i = .lower := by
  cases i with
  | lift => exact .inl rfl
  | lower => exact .inr rfl
  | _ => exact absurd rfl h

end

/-- Settles O25: a changed field is present in the command's update. -/
theorem writersOfEachField : Obligations.WritersOfEachField := by
  intro i s t h
  obtain ⟨inputs, kept | merged⟩ := exec_frame h
  · rw [kept]
    exact ⟨absurd rfl, absurd rfl, absurd rfl, absurd rfl, absurd rfl, inputs⟩
  · rw [merged]
    refine ⟨fun ne => writes_setting (getD_ne_imp_ne_none ne),
      fun ne => writes_counting (c := s.engine) fun absent => ?_,
      fun ne => writes_result (c := s.engine) fun absent => ?_,
      fun ne => writes_carriage (getD_ne_imp_ne_none ne), fun ne => writes_crank (getD_ne_imp_ne_none ne), inputs⟩
    · exact ne (by rw [merge_counting, absent]; rfl)
    · exact ne (by rw [merge_result, absent]; rfl)

/-! ### `SETREG`'s checks (R115) -/

theorem setregCheck_of_register_out {r : Int} (h : r < 1 ∨ r > 8) (v : Int) :
    setregCheck r v = some .registerIndex := by
  rw [setregCheck, registerCheck_of_out (b := .setting) h]

theorem setregCheck_of_register_in {r : Int} (h : 1 ≤ r ∧ r ≤ 8) (v : Int) : setregCheck r v = digitCheck v := by
  rw [setregCheck, (registerCheck_eq_none (b := .setting)).mpr h]

/-- Settles O24: the digit check is reached only with the register in range. -/
theorem setregChecksRegisterFirst : Obligations.SetregChecksRegisterFirst := fun _ v =>
  ⟨fun out => setregCheck_of_register_out out v,
    fun hr out => (setregCheck_of_register_in hr v).trans (digitCheck_of_out out),
    fun hr hv => setregCheck_eq_none.mpr ⟨hr, hv⟩⟩

/-! ### The digit codec as a sum (R17, R19, R80) -/

/-- The encode direction is the sum over the array's entries. -/
theorem toDecimal_eq_sum (ds : List Nat) :
    toDecimal ds = ((List.range ds.length).map fun i => ds.getD i 0 * 10 ^ i).sum := by
  induction ds with
  | nil => rfl
  | cons d ds ih =>
    have shifted : ((List.range ds.length).map fun i => ds.getD i 0 * 10 ^ (i + 1)).sum =
        10 * ((List.range ds.length).map fun i => ds.getD i 0 * 10 ^ i).sum := by
      rw [← List.sum_map_mul_left]
      congr 1
      refine List.map_congr_left fun i _ => ?_
      rw [pow_succ]
      ring
    rw [toDecimal_cons, ih, ← shifted, List.length_cons, List.range_succ_eq_map, List.map_cons, List.map_map,
      List.sum_cons]
    simp [Function.comp_def]

/-- Settles O55: both directions of the codec undo each other, and the sum is by induction on the array. -/
theorem codecRoundTrip : Obligations.CodecRoundTrip :=
  ⟨toDecimal_eq_sum,
    fun x size hx => ⟨by rw [toDecimal_toDigitArray, Nat.mod_eq_of_lt hx], fun _ => le_nine_of_mem_toDigitArray⟩,
    fun _ hds => ⟨toDecimal_lt hds, toDigitArray_toDecimal hds⟩⟩

/-- An addressed digit is an entry of its bank's array. -/
theorem getElem?_toDigitArray_bank {b : Bank} {j : Nat} (hj : j < b.digits) (c : CalculatorState) :
    (toDigitArray (c.bank b) b.digits)[j]? = some (c.digitRead b (j + 1)) :=
  getElem?_toDigitArray hj (c.bank b)

/-- Settles O54: an entry beyond the magnitude is the quotient 0's, and digit `r` is entry `r - 1`. -/
theorem digitArrayHoldsTheDigits : Obligations.DigitArrayHoldsTheDigits := by
  refine ⟨fun n size => ⟨length_toDigitArray n size, fun i hi => getElem?_toDigitArray hi n, fun i hi small => ?_⟩,
    fun c b r hr hrb => ⟨?_, rfl, Nat.le_of_lt_succ (digitRead_lt c b r)⟩⟩
  · rw [getElem?_toDigitArray hi, Nat.div_eq_of_lt small]
  · exact getElem?_toDigitArray (by omega) (c.bank b)

/-- Settles O38: a bank of R16 is the sum over its digit array. -/
theorem bankIsSumOfItsDigits : Obligations.BankIsSumOfItsDigits := by
  intro c b hinv
  calc c.bank b = toDecimal (toDigitArray (c.bank b) b.digits) := by
        rw [toDecimal_toDigitArray]
        exact (Nat.mod_eq_of_lt (bank_lt_modulus hinv b)).symm
    _ = ((List.range b.digits).map fun j => (toDigitArray (c.bank b) b.digits).getD j 0 * 10 ^ j).sum := by
        rw [toDecimal_eq_sum, length_toDigitArray]
    _ = ((List.range b.digits).map fun j => c.digitRead b (j + 1) * 10 ^ j).sum := by
        congr 1
        refine List.map_congr_left fun j hj => ?_
        rw [List.getD_eq_getElem?_getD, getElem?_toDigitArray_bank (List.mem_range.mp hj), Option.getD_some]

/-! ### Digit writes and reads after them (R91) -/

/-- A digit read in range answers the digit. -/
theorem exec_rdsetd_of_in_range {r : Int} (hr : 1 ≤ r) (hr8 : r ≤ 8) (s : State) :
    exec (.rdsetd r) s = .next (s.answer s.engine (mkResponse .ok (s.engine.digitRead .setting r.toNat))) :=
  exec_eq_of_in_domain (i := .rdsetd r) (registerCheck_eq_none.mpr ⟨hr, hr8⟩) s

/-- Settles O40: a digit write sets its digit and no other, and a digit read answers the digit. -/
theorem setregThenReadDigit : Obligations.SetregThenReadDigit := by
  intro r v s _ hr hr8 hv hv9
  have passes : setregCheck r v = none := setregCheck_eq_none.mpr ⟨⟨hr, hr8⟩, hv, hv9⟩
  have digit : v.toNat ≤ 9 := by omega
  refine ⟨_, exec_setreg_of_in_domain passes s, ⟨_, _, exec_rdsetd_of_in_range hr hr8 _, rfl, rfl, ?_⟩,
    fun q hq hq8 hne => ⟨_, _, exec_rdsetd_of_in_range hq hq8 _, exec_rdsetd_of_in_range hq hq8 s, ?_⟩,
    rfl, rfl, fun _ _ _ => rfl, fun _ _ _ => rfl⟩
  · rw [toNat_mkResponse_data _ ((digitRead_lt ..).trans (by decide))]
    have written := digitWrite_digit_same s.engine.settingRegisters (r := r.toNat) (by omega) (by omega) digit
    exact (congrArg Nat.cast written).trans (Int.toNat_of_nonneg hv)
  · have kept := digitWrite_digit_of_ne s.engine.settingRegisters (r := r.toNat) (q := q.toNat) (by omega) digit
      (by omega) (by omega) (by omega)
    exact congrArg (fun d => some (mkResponse .ok d)) kept

theorem digitWrite_comm (n : Nat) {r v q x : Nat} (hv : v ≤ 9) (hx : x ≤ 9) (hr : 1 ≤ r) (hq : 1 ≤ q) (hne : r ≠ q) :
    digitWrite (digitWrite n r v) q x = digitWrite (digitWrite n q x) r v := by
  rw [digitWrite, digits_setting, toDigitArray_digitWrite n r hv, List.set_comm _ _ (by omega),
    ← toDigitArray_digitWrite n q hx, ← digits_setting, ← digitWrite]

theorem digitWrite_overwrite (n r x : Nat) {v : Nat} (hv : v ≤ 9) :
    digitWrite (digitWrite n r v) r x = digitWrite n r x := by
  rw [digitWrite, digits_setting, toDigitArray_digitWrite n r hv, List.set_set, ← digits_setting, ← digitWrite]

/-- Settles O41: replacing two entries of the digit array commutes, and replacing one entry twice keeps the later. -/
theorem setregsCommuteAndOverwrite : Obligations.SetregsCommuteAndOverwrite := by
  intro r v q x s _ hr hr8 hv hv9 hq hq8 hx hx9
  have rv : setregCheck r v = none := setregCheck_eq_none.mpr ⟨⟨hr, hr8⟩, hv, hv9⟩
  have qx : setregCheck q x = none := setregCheck_eq_none.mpr ⟨⟨hq, hq8⟩, hx, hx9⟩
  refine ⟨_, _, _, execAll_pair (exec_setreg_of_in_domain rv s) (exec_setreg_of_in_domain qx _),
    execAll_pair (exec_setreg_of_in_domain qx s) (exec_setreg_of_in_domain rv _), exec_setreg_of_in_domain qx s,
    fun hne => ?_, fun same => ?_⟩
  · simp only [answer_engine]
    rw [digitWrite_comm (v := v.toNat) (x := x.toNat) _ (by omega) (by omega) (by omega) (by omega) (by omega)]
  · subst same
    simp only [answer_engine]
    rw [digitWrite_overwrite (v := v.toNat) _ _ _ (by omega)]

/-! ### Any setting in eight digit writes (R91) -/

/-- The `SETREG` that writes digit `j + 1` of `n`. -/
def writeDigitOf (n j : Nat) : Instr := .setreg ((j + 1 : Nat) : Int) ((n / 10 ^ j % 10 : Nat) : Int)

theorem exec_writeDigitOf (n : Nat) {j : Nat} (hj : j < 8) (s : State) :
    exec (writeDigitOf n j) s = .next (s.answer
      { s.engine with settingRegisters := digitWrite s.engine.settingRegisters (j + 1) (n / 10 ^ j % 10) }
      ⟨.ok, 0⟩) :=
  exec_setreg_of_in_domain (setregCheck_eq_none.mpr (by omega)) s

/-- A value below `10^size` is determined by its digits. -/
theorem eq_of_digits_eq {m n size : Nat} (hm : m < 10 ^ size) (hn : n < 10 ^ size)
    (h : ∀ i, i < size → m / 10 ^ i % 10 = n / 10 ^ i % 10) : m = n := by
  have arrays : toDigitArray m size = toDigitArray n size :=
    List.map_congr_left fun i hi => h i (List.mem_range.mp hi)
  calc m = toDecimal (toDigitArray m size) := by rw [toDecimal_toDigitArray, Nat.mod_eq_of_lt hm]
    _ = n := by rw [arrays, toDecimal_toDigitArray, Nat.mod_eq_of_lt hn]

/-- Writing the digits of `n` at the places `js` gives a setting that has the digits of `n` there and wherever it had
them before. -/
theorem execAll_writeDigitOf (n : Nat) (js : List Nat) (hjs : ∀ j ∈ js, j < 8) (s : State)
    (hset : s.engine.settingRegisters < 10 ^ 8) :
    ∃ t x, execAll (js.map (writeDigitOf n)) s = .next t ∧ t.engine = { s.engine with settingRegisters := x } ∧
      x < 10 ^ 8 ∧
      ∀ i, i < 8 → (i ∈ js ∨ s.engine.settingRegisters / 10 ^ i % 10 = n / 10 ^ i % 10) →
        x / 10 ^ i % 10 = n / 10 ^ i % 10 := by
  induction js generalizing s with
  | nil => exact ⟨s, s.engine.settingRegisters, rfl, rfl, hset, fun i _ h => h.resolve_left List.not_mem_nil⟩
  | cons j js ih =>
    obtain ⟨hj, hjs⟩ := List.forall_mem_cons.mp hjs
    have digit : n / 10 ^ j % 10 ≤ 9 := by omega
    have first := exec_writeDigitOf n hj s
    obtain ⟨t, x, run, engine, bound, digits⟩ :=
      ih hjs (s.answer { s.engine with settingRegisters := _ } ⟨.ok, 0⟩) (digitWrite_lt _ (j + 1) digit)
    refine ⟨t, x, (execAll_cons first _).trans run, engine, bound, fun i hi h => digits i hi ?_⟩
    by_cases here : i = j
    · subst here
      exact .inr (digitWrite_digit_same _ (r := i + 1) (by omega) (by omega) digit)
    · refine h.imp (fun mem => (List.mem_cons.mp mem).resolve_left here) fun had => ?_
      exact (digitWrite_digit_of_ne _ (r := j + 1) (q := i + 1) (by omega) digit (by omega) (by omega)
        (by omega)).trans had

/-- Settles O42: the eight digits of `n` are written one after another. -/
theorem eightSetregsReachAnySetting : Obligations.EightSetregsReachAnySetting := by
  intro s n hinv hn
  obtain ⟨setting, -⟩ := hinv
  obtain ⟨t, x, run, engine, bound, digits⟩ :=
    execAll_writeDigitOf n (List.range 8) (fun j => List.mem_range.mp) s setting
  have reached : x = n := eq_of_digits_eq bound hn fun i hi => digits i hi (.inl (List.mem_range.mpr hi))
  refine ⟨(List.range 8).map (writeDigitOf n), by simp, fun i hi => ?_, t, run, reached ▸ engine⟩
  obtain ⟨j, -, rfl⟩ := List.mem_map.mp hi
  exact ⟨_, _, rfl⟩

end Sys2Proof.Machine

/-! # Proofs of the turn statements on several commands (`44_turn.md`)

Where a turn reduces (R102), a turn undone by one with the crank reversed (R105), and the product law as one weight
added to both banks (R106). -/

namespace Sys2Proof.Machine

/-! ### Where a turn reduces (R102) -/

theorem addWeight_counting (c : CalculatorState) (w : Int) :
    ((c.addWeight w).countingRegisters : Int) = ((c.countingRegisters : Int) + w) % 1000000 :=
  coe_norm .counting _

theorem addWeight_result (c : CalculatorState) (w : Int) :
    ((c.addWeight w).resultRegisters : Int) =
      ((c.resultRegisters : Int) + (c.settingRegisters : Int) * w) % 100000000000 :=
  coe_norm .result _

/-- Adding the ten's complement of a reduced magnitude is subtracting the magnitude. -/
theorem add_complement_modEq (m x y : Int) : x + (m - y % m) ≡ x - y [ZMOD m] := by
  have reduced : x + (0 - y % m) ≡ x + (0 - y) [ZMOD m] := ((Int.mod_modEq y m).sub_left 0).add_left x
  calc x + (m - y % m) = x + (0 - y % m) + m := by ring
    _ ≡ x + (0 - y % m) [ZMOD m] := Int.add_modEq_right
    _ ≡ x + (0 - y) [ZMOD m] := reduced
    _ = x - y := by ring

/-- Settles O48: factors congruent modulo the modulus give products and sums that are. -/
theorem reductionPlaceDoesNotMatter : Obligations.ReductionPlaceDoesNotMatter := by
  intro n s _ hn
  refine ⟨_, exec_turn_of_one_le hn s, ?_⟩
  intro c m p
  have weight : turnWeight n s.engine = n * p * m := rfl
  rw [answer_engine, addWeight_counting, addWeight_result, weight]
  refine ⟨?_, ?_, fun up => ?_⟩
  · exact ((((Int.mod_modEq n _).mul (Int.mod_modEq p _)).mul_right m).add_left _).symm
  · have reduced : (c.settingRegisters : Int) * (n * p % 100000000000) % 100000000000 * m ≡
        (c.settingRegisters : Int) * (n * p) * m [ZMOD 100000000000] :=
      ((Int.mod_modEq _ _).trans ((Int.mod_modEq (n * p) _).mul_left _)).mul_right m
    rw [← mul_assoc]
    exact (reduced.add_left _).symm
  · have minus : m = -1 := by simp [m, up]
    rw [minus]
    constructor
    · rw [mul_neg_one, ← sub_eq_add_neg]
      exact (add_complement_modEq _ _ _).symm
    · rw [mul_neg_one, mul_neg, ← sub_eq_add_neg]
      exact (add_complement_modEq _ _ _).symm

/-! ### A turn undone (R105) -/

/-- A bank in its range is its own normalisation. -/
theorem norm_coe_of_lt {b : Bank} {n : Nat} (h : n < b.modulus) : norm b (n : Int) = n := by
  have kept := coe_norm b (n : Int)
  rw [Int.emod_eq_of_lt (by omega) (by exact_mod_cast h)] at kept
  exact_mod_cast kept

/-- In a state of R16 the weight 0 changes nothing. -/
theorem addWeight_zero {c : CalculatorState} (h : c.Inv) : c.addWeight 0 = c := by
  have counting : norm .counting (c.countingRegisters : Int) = c.countingRegisters :=
    norm_coe_of_lt (bank_lt_modulus h .counting)
  have result : norm .result (c.resultRegisters : Int) = c.resultRegisters :=
    norm_coe_of_lt (bank_lt_modulus h .result)
  simp only [CalculatorState.addWeight, add_zero, mul_zero, counting, result]

/-- The opposite crank position gives the opposite weight. -/
theorem turnWeight_withCrank_not (n : Int) (c : CalculatorState) :
    turnWeight n { c with crankDown := !c.crankDown } = -turnWeight n c := by
  cases h : c.crankDown <;> simp [turnWeight, multiplier, h]

/-- A turn, a command that only reverses the crank, and the turn again. -/
theorem execAll_turn_reverse_turn {n : Int} (hn : 1 ≤ n) {s : State} (hinv : s.engine.Inv) {i : Instr} {d : Bool}
    (reverse : ∀ s : State, exec i s = .next (s.answer { s.engine with crankDown := d } ⟨.ok, 0⟩))
    (opposite : (!s.engine.crankDown) = d) :
    ∃ t, execAll [.turn n, i, .turn n] s = .next t ∧ t.engine = { s.engine with crankDown := d } := by
  subst opposite
  refine ⟨_, (execAll_cons (exec_turn_of_one_le hn s) _).trans
    (execAll_pair (reverse _) (exec_turn_of_one_le hn _)), ?_⟩
  set w := turnWeight n s.engine
  have back : turnWeight n { s.engine.addWeight w with crankDown := !s.engine.crankDown } = -w :=
    turnWeight_withCrank_not n s.engine
  have undone : ((s.engine.addWeight w).addWeight (-w)) = s.engine := by
    rw [addWeight_addWeight, add_neg_cancel, addWeight_zero hinv]
  calc _ = ({ s.engine.addWeight w with crankDown := !s.engine.crankDown } : CalculatorState).addWeight (-w) :=
        congrArg _ back
    _ = { (s.engine.addWeight w).addWeight (-w) with crankDown := !s.engine.crankDown } := rfl
    _ = { s.engine with crankDown := !s.engine.crankDown } := by rw [undone]

/-- Settles O51: the two weights cancel, and the crank is the one field the three commands change. -/
theorem crankReversalUndoesTurn : Obligations.CrankReversalUndoesTurn := fun _ _ hinv hn =>
  ⟨fun down => execAll_turn_reverse_turn hn hinv liftSelectsSubtraction.2 (by rw [down]; rfl),
    fun up => execAll_turn_reverse_turn hn hinv lowerSelectsAddition.2 (by rw [up]; rfl)⟩

/-! ### The product law (R106) -/

/-- The five fields after commands that add the weight `w` in all and leave the carriage at `k` and the crank at
`d`. -/
def CalculatorState.moved (c : CalculatorState) (w : Int) (k : Nat) (d : Bool) : CalculatorState :=
  { c.addWeight w with carriageSetting := k, crankDown := d }

theorem moved_moved (c : CalculatorState) (v w : Int) (j k : Nat) (d e : Bool) :
    (c.moved v j d).moved w k e = c.moved (v + w) k e := by
  have sum : (c.moved v j d).moved w k e = { (c.addWeight v).addWeight w with carriageSetting := k, crankDown := e } :=
    rfl
  rw [sum, addWeight_addWeight, CalculatorState.moved]

/-- The weight 0 moves the carriage and the crank alone. -/
theorem moved_zero {c : CalculatorState} (h : c.Inv) (k : Nat) (d : Bool) :
    c.moved 0 k d = { c with carriageSetting := k, crankDown := d } := by
  rw [CalculatorState.moved, addWeight_zero h]

/-- A command moves the five fields by the weight it adds to the total of every sequence that starts with it. -/
def MovesByWeight (i : Instr) (s : State) : Prop :=
  ∃ (w : Int) (k : Nat) (d : Bool) (r : Response), exec i s = .next (s.answer (s.engine.moved w k d) r) ∧
    ∀ is, totalWeight (i :: is) s.engine.carriageSetting s.engine.crankDown = w + totalWeight is k d

/-- A command that leaves the banks moves by no weight. -/
theorem movesByWeight_of_no_weight {i : Instr} {s : State} {k : Nat} {d : Bool} {r : Response} (hinv : s.engine.Inv)
    (h : exec i s = .next (s.answer { s.engine with carriageSetting := k, crankDown := d } r))
    (total : ∀ is, totalWeight (i :: is) s.engine.carriageSetting s.engine.crankDown = totalWeight is k d) :
    MovesByWeight i s :=
  ⟨0, k, d, r, by rw [h, moved_zero hinv], fun is => by rw [total, zero_add]⟩

/-- A read leaves the five fields, whether it acts or fails. -/
theorem movesByWeight_of_read {i : Instr} {s : State} (hinv : s.engine.Inv) (update : updateOf i s.engine = {})
    (total : ∀ is k d, totalWeight (i :: is) k d = totalWeight is k d) : MovesByWeight i s := by
  obtain ⟨r, answered⟩ := exec_of_no_update update
  exact movesByWeight_of_no_weight hinv answered fun is => total is _ _

theorem movesByWeight_setcar (n : Int) {s : State} (hinv : s.engine.Inv) : MovesByWeight (.setcar n) s := by
  obtain ⟨-, sets⟩ := setcarSetsCarriageOrFails
  obtain ⟨inRange, outOfRange⟩ := sets n s
  by_cases h : 1 ≤ n ∧ n ≤ 6
  · exact movesByWeight_of_no_weight hinv (inRange h) fun is => by rw [totalWeight, if_pos h]
  · exact movesByWeight_of_no_weight hinv (outOfRange (by omega)) fun is => by rw [totalWeight, if_neg h]

theorem movesByWeight_turn (n : Int) {s : State} (hinv : s.engine.Inv) : MovesByWeight (.turn n) s := by
  by_cases h : 1 ≤ n
  · exact ⟨turnWeight n s.engine, _, _, _, exec_turn_of_one_le h s, fun is => by rw [totalWeight, if_pos h]; rfl⟩
  · exact movesByWeight_of_no_weight hinv (exec_turn_of_lt_one (by omega) s)
      fun is => by rw [totalWeight, if_neg h, zero_add]

theorem movesByWeight_of_keepsProduct {i : Instr} (h : keepsProduct i = true) {s : State} (hinv : s.engine.Inv) :
    MovesByWeight i s := by
  cases i with
  | turn n => exact movesByWeight_turn n hinv
  | setcar n => exact movesByWeight_setcar n hinv
  | lift => exact movesByWeight_of_no_weight hinv (liftSelectsSubtraction.2 s) fun _ => rfl
  | lower => exact movesByWeight_of_no_weight hinv (lowerSelectsAddition.2 s) fun _ => rfl
  | setreg r v => exact nomatch h
  | clrcnt => exact nomatch h
  | clrres => exact nomatch h
  | clr => exact nomatch h
  | _ => exact movesByWeight_of_read hinv rfl fun _ _ _ => rfl

/-- A command keeps R16. -/
theorem engine_inv_of_exec {i : Instr} {s t : State} (h : exec i s = .next t) (hinv : s.engine.Inv) : t.engine.Inv := by
  obtain ⟨c, r, answered, keeps, -⟩ := exec_keeps_inv i hinv
  obtain rfl := Host.Outcome.next.inj (answered.symm.trans h)
  exact keeps

/-- A sequence of such commands moves the five fields by its total weight. -/
theorem execAll_moves_by_totalWeight (is : List Instr) (s : State) (hinv : s.engine.Inv)
    (h : ∀ i ∈ is, keepsProduct i = true) :
    ∃ t k d, execAll is s = .next t ∧
      t.engine = s.engine.moved (totalWeight is s.engine.carriageSetting s.engine.crankDown) k d := by
  induction is generalizing s with
  | nil => exact ⟨s, _, _, rfl, (moved_zero hinv _ _).symm⟩
  | cons i is ih =>
    obtain ⟨hi, his⟩ := List.forall_mem_cons.mp h
    obtain ⟨w, k, d, r, first, total⟩ := movesByWeight_of_keepsProduct hi hinv
    obtain ⟨t, k', d', run, engine⟩ := ih (s.answer (s.engine.moved w k d) r) (engine_inv_of_exec first hinv) his
    refine ⟨t, k', d', (execAll_cons first is).trans run, ?_⟩
    rw [engine, total, answer_engine, moved_moved]
    rfl

/-- Settles O52: the banks after a move by the total weight; from 0 and in range the sums are not reduced. -/
theorem productLaw : Obligations.ProductLaw := by
  intro is s hinv h
  obtain ⟨t, k, d, run, engine⟩ := execAll_moves_by_totalWeight is s hinv h
  refine ⟨t, run, ?_⟩
  intro W
  have counting : (t.engine.countingRegisters : Int) = ((s.engine.countingRegisters : Int) + W) % 1000000 := by
    rw [engine]; exact addWeight_counting s.engine W
  have result : (t.engine.resultRegisters : Int) =
      ((s.engine.resultRegisters : Int) + (s.engine.settingRegisters : Int) * W) % 100000000000 := by
    rw [engine]; exact addWeight_result s.engine W
  refine ⟨by rw [engine]; rfl, counting, result, fun zeroC zeroP nonneg hW hSW => ?_⟩
  have product : 0 ≤ (s.engine.settingRegisters : Int) * W := by positivity
  rw [counting, result, zeroC, zeroP, Nat.cast_zero, zero_add, zero_add]
  exact ⟨Int.emod_eq_of_lt nonneg hW, Int.emod_eq_of_lt product hSW⟩

end Sys2Proof.Machine
